-- ==== Sys2Proof/Word.lean ====
section
/-! DEFINITION. The two value types of the block (00_scope.md R7): the 32-bit word and the 8-bit byte. -/

namespace Sys2Proof

/-- A 32-bit unsigned value; `+` on words is addition modulo 2^32 (R7, R130). -/
abbrev Word := BitVec 32

/-- An 8-bit unsigned value (R7). -/
abbrev Byte := BitVec 8

end Sys2Proof
end

