-- ==== Sys2Proof/Syntax.lean ====
section
/-! DEFINITION. The commands of the block: one constructor per row of spec/opcode_table.json (30_encoding.md R93). -/

namespace Sys2Proof

/-- A command of the Cool17 crypto core. `len` is the field LEN = v[14:8] (R91), which only two commands have. -/
inductive Instr where
  /-- NOP, OP 0x00 (R263). -/
  | nop
  /-- SHA_INIT, OP 0x01 (R136). -/
  | shaInit
  /-- SHA_UPDATE LEN, OP 0x02 (R137). -/
  | shaUpdate (len : BitVec 7)
  /-- SHA_FINAL, OP 0x03 (R138). -/
  | shaFinal
  /-- HMAC_KEY LEN, OP 0x10 (R184). -/
  | hmacKey (len : BitVec 7)
  /-- HMAC_KEY_DIGEST, OP 0x11 (R185). -/
  | hmacKeyDigest
  /-- HMAC_START, OP 0x12 (R186). -/
  | hmacStart
  /-- HMAC_FINISH, OP 0x13 (R187). -/
  | hmacFinish
  /-- AES_KEYEXP, OP 0x20 (R230). -/
  | aesKeyexp
  /-- AES_ENC, OP 0x21 (R231). -/
  | aesEnc
  /-- AES_DEC, OP 0x22 (R232). -/
  | aesDec
  /-- CLR_ERR, OP 0x30 (R264). -/
  | clrErr
deriving DecidableEq, Repr

end Sys2Proof
end

