-- ==== Sys2Proof/WellFormed.lean ====
section
/-! DEFINITION. When a command's operands are in their legal range (30_encoding.md R91). -/

namespace Sys2Proof

/-- R91: LEN is legal in 0..64; a command without LEN is always well-formed. -/
def Instr.wellFormed : Instr → Bool
  | .shaUpdate len => decide (len.toNat ≤ 64)
  | .hmacKey len => decide (len.toNat ≤ 64)
  | .nop | .shaInit | .shaFinal | .hmacKeyDigest | .hmacStart | .hmacFinish => true
  | .aesKeyexp | .aesEnc | .aesDec | .clrErr => true

end Sys2Proof
end

