-- ==== Sys2Proof/Decode.lean ====
section
/-! DEFINITION. The command word (30_encoding.md R90 to R96): its fields, the total decoder, and the encoder. -/

namespace Sys2Proof

/-- Why a word is no command: the two `Invalid` answers of R96, by name. -/
inductive DecodeReject where
  /-- The opcode is not one of the twelve (R94): ERR_OPCODE. -/
  | opcode
  /-- A reserved bit is set, or LEN > 64 (R92, R91): ERR_ARG. -/
  | argument
deriving DecidableEq, Repr

/-- OP = v[7:0] (R90). -/
def opField (v : Word) : Byte := v.extractLsb' 0 8

/-- LEN = v[14:8] (R90, R91). -/
def lenField (v : Word) : BitVec 7 := v.extractLsb' 8 7

/-- RSV = v[31:15], the reserved bits of the two commands that use LEN (R92). -/
def rsvField (v : Word) : BitVec 17 := v.extractLsb' 15 17

/-- v[31:8], the reserved bits of every other command (R92). -/
def highField (v : Word) : BitVec 24 := v.extractLsb' 8 24

/-- A command without operands: every bit above OP must be zero (R92). -/
def decodePlain (v : Word) (i : Instr) : Except DecodeReject Instr :=
  if highField v = 0 then .ok i else .error .argument

/-- A command with LEN: RSV must be zero and LEN at most 64 (R91, R92). -/
def decodeLen (v : Word) (mk : BitVec 7 → Instr) : Except DecodeReject Instr :=
  if rsvField v = 0 ∧ (lenField v).toNat ≤ 64 then .ok (mk (lenField v)) else .error .argument

/-- `Decode(v)` of R96, total on every word. -/
def decode (v : Word) : Except DecodeReject Instr :=
  if opField v = 0x00 then decodePlain v .nop
  else if opField v = 0x01 then decodePlain v .shaInit
  else if opField v = 0x02 then decodeLen v .shaUpdate
  else if opField v = 0x03 then decodePlain v .shaFinal
  else if opField v = 0x10 then decodeLen v .hmacKey
  else if opField v = 0x11 then decodePlain v .hmacKeyDigest
  else if opField v = 0x12 then decodePlain v .hmacStart
  else if opField v = 0x13 then decodePlain v .hmacFinish
  else if opField v = 0x20 then decodePlain v .aesKeyexp
  else if opField v = 0x21 then decodePlain v .aesEnc
  else if opField v = 0x22 then decodePlain v .aesDec
  else if opField v = 0x30 then decodePlain v .clrErr
  else .error .opcode

/-- The OP value of each command (R93). -/
def opcode : Instr → Byte
  | .nop => 0x00
  | .shaInit => 0x01
  | .shaUpdate _ => 0x02
  | .shaFinal => 0x03
  | .hmacKey _ => 0x10
  | .hmacKeyDigest => 0x11
  | .hmacStart => 0x12
  | .hmacFinish => 0x13
  | .aesKeyexp => 0x20
  | .aesEnc => 0x21
  | .aesDec => 0x22
  | .clrErr => 0x30

/-- The LEN field of each command; zero where LEN is reserved (R91). -/
def lenOperand : Instr → BitVec 7
  | .shaUpdate len => len
  | .hmacKey len => len
  | .nop | .shaInit | .shaFinal | .hmacKeyDigest | .hmacStart | .hmacFinish => 0
  | .aesKeyexp | .aesEnc | .aesDec | .clrErr => 0

/-- The command word of a command: RSV = 0, then LEN, then OP (R90, R97: `OP | (len << 8)`). -/
def encode (i : Instr) : Word := 0#17 ++ lenOperand i ++ opcode i

/-- The "word" column of R93: the command's word with LEN = 0. -/
def tableWord : Instr → Word
  | .nop => 0x00000000
  | .shaInit => 0x00000001
  | .shaUpdate _ => 0x00000002
  | .shaFinal => 0x00000003
  | .hmacKey _ => 0x00000010
  | .hmacKeyDigest => 0x00000011
  | .hmacStart => 0x00000012
  | .hmacFinish => 0x00000013
  | .aesKeyexp => 0x00000020
  | .aesEnc => 0x00000021
  | .aesDec => 0x00000022
  | .clrErr => 0x00000030

/-- The "mask" column of R93: a word v selects the row when v & mask = word. -/
def tableMask : Instr → Word
  | .shaUpdate _ => 0xFFFF80FF
  | .hmacKey _ => 0xFFFF80FF
  | .nop | .shaInit | .shaFinal | .hmacKeyDigest | .hmacStart | .hmacFinish => 0xFFFFFFFF
  | .aesKeyexp | .aesEnc | .aesDec | .clrErr => 0xFFFFFFFF

/-- The command the decoder reads from a word of `nbits` bits, numbered as spec/opcode_table.json numbers them; every command
is one 32-bit word (R95), so a longer request has no command. -/
def decodeTableWord (nbits w : Nat) : Option Instr :=
  if nbits ≤ 32 then
    match decode (BitVec.ofNat 32 (w % 2 ^ nbits)) with
    | .ok i => some i
    | .error _ => none
  else none

end Sys2Proof
end

