-- ==== Sys2Proof/Config.lean ====
section
/-! DEFINITION. What the spec leaves to the implementation (00_scope.md R6; 92_eei_decisions.md, OPEN parameters) and the
free values (93_implementation_defined.md U6, U9). None has a body: no proof can learn a value of one. -/

namespace Sys2Proof

/-- OPEN parameter `BASE`, in words: the window starts at byte address 4 * `baseWord` (R60, D2: word-aligned). Log 4. -/
opaque Config.baseWord : Nat

/-- OPEN parameter `LAT(op)`, one value per acceptance (R6, D10, U9): the k-th free value is the latency of an acceptance for
which the state lists none. A natural number, so finite (weak fairness, R262, R322). Log 2. -/
opaque Config.latency : Nat → Nat

/-- `draw(word)` of R260 and R266 (D11, U6): the word a read of the busy interval returns; the k-th draw is independent of
every other and of the state. Log 3. -/
opaque Config.draw : Nat → Word

/-- The host address of offset 0 of the window (R60). -/
def Config.base : Nat := 4 * Config.baseWord

end Sys2Proof
end

