-- ==== Sys2Proof/Machine/State.lean ====
section
/-! DEFINITION. The state of the block (10_state.md R20 to R43), what the outside can do to it, and how a step can stop. -/

namespace Sys2Proof.Machine

/-- SHA_STATE, the lifecycle of the hash context (R34); the code 3 does not exist. -/
inductive ShaState where
  | uninit
  | active
  | final
deriving DecidableEq, Repr

/-- The error codes of STATUS.ERR that a rejection can raise (R281). -/
inductive ErrCode where
  /-- ERR_BUSY (R284, R265). -/
  | busy
  /-- ERR_OPCODE (R285). -/
  | opcode
  /-- ERR_ARG (R286). -/
  | arg
  /-- ERR_SEQUENCE (R287). -/
  | sequence
deriving DecidableEq, Repr

/-- The width of a host access; only 32 bits is admitted (R62). -/
inductive Width where
  | w8
  | w16
  | w32
  | w64
deriving DecidableEq, Repr

/-- A register of the window, as the map of R61 names it; a reserved offset is `reserved` (R66). -/
inductive Reg where
  | id
  | cmd
  | status
  | bitlenLo
  | bitlenHi
  | din (i : Fin 16)
  | digest (i : Fin 8)
  | aesout (i : Fin 4)
  | rk (i : Fin 44)
  | reserved
deriving DecidableEq, Repr

/-- What the outside does to the block, one at a time (R12, R69, R310). Offsets are in bytes from BASE. Log 1. -/
inductive HostInput where
  /-- A host read at an offset (R260). -/
  | read (off : Nat) (width : Width)
  /-- A host write of a word at an offset (R261). -/
  | write (off : Nat) (width : Width) (v : Word)
  /-- POLL: read STATUS until bit 0 is 0 (R98, R268). -/
  | poll
  /-- The reset input is asserted (R310). -/
  | assertReset
  /-- The reset input is released (R310). -/
  | releaseReset
deriving DecidableEq, Repr

/-- The kind of a bus fault (R62, R63, R288). -/
inductive BusFaultKind where
  | subWordAccess
  | misaligned
deriving DecidableEq, Repr

/-- Why the machine stops with a fault. -/
inductive Fault where
  /-- `raise BusFault(kind, off)`: raised by a host access that is sub-word or misaligned (R62, R63, R288). It changes no state
  and is never cleared. Safe: a real bus might answer and go on (D4, log 5). -/
  | busFault (kind : BusFaultKind) (off : Nat)
  /-- Stuck: raised by a host access while reset is asserted, which has no step (R310, U8). Safe (log 6). -/
  | accessDuringReset
  /-- Stuck: raised by the engine's turn with BUSY = 1 and PEND = none, which no reachable state has (R42 item 5). Safe (log 7). -/
  | engineWithoutCommand
deriving DecidableEq, Repr

/-- Why the machine refuses. -/
inductive Refusal where
  /-- Raised by `exec` alone, for a command that has no meaning yet, by its mnemonic. Safe. -/
  | notModelled (mnemonic : String)
  /-- Raised by a host access outside the window, which does not belong to the block (R61). Safe (log 4). -/
  | outsideWindow (off : Nat)
deriving DecidableEq, Repr

/-- Every state element the spec gives the block, then the outside world as plain data. -/
@[ext]
structure State where
  /-- DIN[0..15] (R26). -/
  din : Vector Word 16
  /-- DIGEST[0..7] (R27). -/
  digest : Vector Word 8
  /-- AESOUT[0..3] (R28). -/
  aesout : Vector Word 4
  /-- RK[0..43] (R29). -/
  rk : Vector Word 44
  /-- H[0..7] (R30). -/
  h : Vector Word 8
  /-- BUF[0..63] (R31). -/
  buf : Vector Byte 64
  /-- BUFCNT, a 6-bit count (R32). -/
  bufcnt : BitVec 6
  /-- BITLEN, a 64-bit counter (R33). -/
  bitlen : BitVec 64
  /-- SHA_STATE (R34). -/
  shaState : ShaState
  /-- HMAC_INNER (R35). -/
  hmacInner : Bool
  /-- K0[0..63] (R36). -/
  k0 : Vector Byte 64
  /-- BUSY (R37). -/
  busy : Bool
  /-- PEND: the accepted command that the engine has not performed yet, with its LEN, or none (R37). -/
  pend : Option Instr
  /-- ERR, 4 bits (R38). -/
  err : BitVec 4
  /-- The level of the reset input (R310). -/
  inReset : Bool
  /-- Model: what the outside does next, oldest first (log 1, log 8). -/
  inputs : List HostInput
  /-- Model: the words host reads have returned, newest first (log 9). -/
  reads : List Word
  /-- Model: how many steps pass before the engine performs PEND (log 2). -/
  wait : Nat
  /-- Model: LAT of the next acceptances; when empty, LAT is the free value `Config.latency` (log 2). -/
  latencies : List Nat
  /-- Model: the index of the next free value (log 3). -/
  fresh : Nat
deriving DecidableEq, Repr

/-- The block right after reset (R41, R310): every element at the value R41 gives; the model's own fields empty (log 8). -/
def State.reset : State where
  din := Vector.replicate 16 0
  digest := Vector.replicate 8 0
  aesout := Vector.replicate 4 0
  rk := Vector.replicate 44 0
  h := Vector.replicate 8 0
  buf := Vector.replicate 64 0
  bufcnt := 0
  bitlen := 0
  shaState := .uninit
  hmacInner := false
  k0 := Vector.replicate 64 0
  busy := false
  pend := none
  err := 0
  inReset := false
  inputs := []
  reads := []
  wait := 0
  latencies := []
  fresh := 0

end Sys2Proof.Machine
end

