-- ==== Sys2Proof/Machine/Operands.lean ====
section
/-! DEFINITION. Bytes and words: the packing of the data windows (20_memory.md R64, R76) and the operands that commands take
from them. -/

namespace Sys2Proof.Machine

/-- `BE32(b0,b1,b2,b3)`, b0 most significant (R10). -/
def be32 (b0 b1 b2 b3 : Byte) : Word := b0 ++ b1 ++ b2 ++ b3

/-- Byte `j` of a word, counted from the most significant: v[31-8j : 24-8j] (R64). -/
def wordByte (w : Word) (j : Nat) : Byte := w.extractLsb' (24 - 8 * j) 8

/-- `BEbytes(w)`, the four bytes of a word, most significant first (R10). -/
def beBytes (w : Word) : List Byte := [wordByte w 0, wordByte w 1, wordByte w 2, wordByte w 3]

/-- `BEbytes64(L)`, the eight bytes of a 64-bit value, most significant first (R133). -/
def beBytes64 (l : BitVec 64) : List Byte := (List.range 8).map fun i => l.extractLsb' (56 - 8 * i) 8

/-- `bytes(X)`: the byte sequence a window of words holds (R64). -/
def bytesOf (ws : List Word) : List Byte := ws.flatMap beBytes

/-- The 64-byte block made of the first 64 bytes of a sequence, zero where the sequence is shorter. -/
def blockOf (bs : List Byte) : Vector Byte 64 := Vector.ofFn fun i => bs.getD i.val 0

/-- `bytes(DIN)[0..LEN-1]`, the operand of SHA_UPDATE and HMAC_KEY (R26, R137, R184). -/
def State.dinBytes (s : State) (len : BitVec 7) : List Byte := (bytesOf s.din.toList).take len.toNat

/-- `bytes(DIGEST)[0..31]`, the operand of HMAC_KEY_DIGEST (R185, R141). -/
def State.digestBytes (s : State) : List Byte := bytesOf s.digest.toList

/-- DIN[0..3], the key or block of an AES command (R26, R230 to R232). -/
def State.dinBlock (s : State) : Vector Word 4 := #v[s.din[0], s.din[1], s.din[2], s.din[3]]

end Sys2Proof.Machine
end

