-- ==== Sys2Proof/Machine/AesCore.lean ====
section
/-! DEFINITION. The pure AES-128 functions (42_aes128.md R210 to R226, R229). -/

namespace Sys2Proof.Machine

/-- One column of the AES state: `r0` is row 0 (R210). -/
structure AesColumn where
  r0 : Byte
  r1 : Byte
  r2 : Byte
  r3 : Byte
deriving DecidableEq, Repr

/-- The AES state s[r][c] as its four columns (R210). -/
structure AesBlock where
  c0 : AesColumn
  c1 : AesColumn
  c2 : AesColumn
  c3 : AesColumn
deriving DecidableEq, Repr

/-- The column that a word holds: s[r][c] = DIN[c][31-8r : 24-8r] (R210). -/
def columnOf (w : Word) : AesColumn :=
  { r0 := wordByte w 0, r1 := wordByte w 1, r2 := wordByte w 2, r3 := wordByte w 3 }

/-- The word of a column, row 0 most significant (R210). -/
def AesColumn.word (k : AesColumn) : Word := be32 k.r0 k.r1 k.r2 k.r3

/-- `load` (R210). -/
def loadBlock (w : Vector Word 4) : AesBlock :=
  { c0 := columnOf w[0], c1 := columnOf w[1], c2 := columnOf w[2], c3 := columnOf w[3] }

/-- `unload` (R210). -/
def unloadBlock (s : AesBlock) : Vector Word 4 := #v[s.c0.word, s.c1.word, s.c2.word, s.c3.word]

/-- A function on each of the four columns. -/
def AesBlock.mapColumns (f : AesColumn → AesColumn) (s : AesBlock) : AesBlock :=
  { c0 := f s.c0, c1 := f s.c1, c2 := f s.c2, c3 := f s.c3 }

/-- A function on each of the four bytes of a column. -/
def AesColumn.mapBytes (f : Byte → Byte) (k : AesColumn) : AesColumn :=
  { r0 := f k.r0, r1 := f k.r1, r2 := f k.r2, r3 := f k.r3 }

/-- `xtime(b)` (R211). -/
def xtime (b : Byte) : Byte := (b <<< 1) ^^^ (if b.msb then 0x1b else 0)

/-- `xtime^i(a)` (R211). -/
def xtimePow : Nat → Byte → Byte
  | 0, a => a
  | n + 1, a => xtime (xtimePow n a)

/-- `a • b`: the XOR over the bits i of b that are 1 of xtime^i(a) (R211). -/
def gmul (a b : Byte) : Byte :=
  (List.range 8).foldl (fun acc i => acc ^^^ (if b.getLsbD i then xtimePow i a else 0)) 0

/-- `SBOX`, row hi, column lo (R212). -/
def sboxRows : List (List Byte) :=
  [[0x63, 0x7c, 0x77, 0x7b, 0xf2, 0x6b, 0x6f, 0xc5, 0x30, 0x01, 0x67, 0x2b, 0xfe, 0xd7, 0xab, 0x76],
   [0xca, 0x82, 0xc9, 0x7d, 0xfa, 0x59, 0x47, 0xf0, 0xad, 0xd4, 0xa2, 0xaf, 0x9c, 0xa4, 0x72, 0xc0],
   [0xb7, 0xfd, 0x93, 0x26, 0x36, 0x3f, 0xf7, 0xcc, 0x34, 0xa5, 0xe5, 0xf1, 0x71, 0xd8, 0x31, 0x15],
   [0x04, 0xc7, 0x23, 0xc3, 0x18, 0x96, 0x05, 0x9a, 0x07, 0x12, 0x80, 0xe2, 0xeb, 0x27, 0xb2, 0x75],
   [0x09, 0x83, 0x2c, 0x1a, 0x1b, 0x6e, 0x5a, 0xa0, 0x52, 0x3b, 0xd6, 0xb3, 0x29, 0xe3, 0x2f, 0x84],
   [0x53, 0xd1, 0x00, 0xed, 0x20, 0xfc, 0xb1, 0x5b, 0x6a, 0xcb, 0xbe, 0x39, 0x4a, 0x4c, 0x58, 0xcf],
   [0xd0, 0xef, 0xaa, 0xfb, 0x43, 0x4d, 0x33, 0x85, 0x45, 0xf9, 0x02, 0x7f, 0x50, 0x3c, 0x9f, 0xa8],
   [0x51, 0xa3, 0x40, 0x8f, 0x92, 0x9d, 0x38, 0xf5, 0xbc, 0xb6, 0xda, 0x21, 0x10, 0xff, 0xf3, 0xd2],
   [0xcd, 0x0c, 0x13, 0xec, 0x5f, 0x97, 0x44, 0x17, 0xc4, 0xa7, 0x7e, 0x3d, 0x64, 0x5d, 0x19, 0x73],
   [0x60, 0x81, 0x4f, 0xdc, 0x22, 0x2a, 0x90, 0x88, 0x46, 0xee, 0xb8, 0x14, 0xde, 0x5e, 0x0b, 0xdb],
   [0xe0, 0x32, 0x3a, 0x0a, 0x49, 0x06, 0x24, 0x5c, 0xc2, 0xd3, 0xac, 0x62, 0x91, 0x95, 0xe4, 0x79],
   [0xe7, 0xc8, 0x37, 0x6d, 0x8d, 0xd5, 0x4e, 0xa9, 0x6c, 0x56, 0xf4, 0xea, 0x65, 0x7a, 0xae, 0x08],
   [0xba, 0x78, 0x25, 0x2e, 0x1c, 0xa6, 0xb4, 0xc6, 0xe8, 0xdd, 0x74, 0x1f, 0x4b, 0xbd, 0x8b, 0x8a],
   [0x70, 0x3e, 0xb5, 0x66, 0x48, 0x03, 0xf6, 0x0e, 0x61, 0x35, 0x57, 0xb9, 0x86, 0xc1, 0x1d, 0x9e],
   [0xe1, 0xf8, 0x98, 0x11, 0x69, 0xd9, 0x8e, 0x94, 0x9b, 0x1e, 0x87, 0xe9, 0xce, 0x55, 0x28, 0xdf],
   [0x8c, 0xa1, 0x89, 0x0d, 0xbf, 0xe6, 0x42, 0x68, 0x41, 0x99, 0x2d, 0x0f, 0xb0, 0x54, 0xbb, 0x16]]

/-- `INVSBOX`, row hi, column lo (R213). -/
def invSboxRows : List (List Byte) :=
  [[0x52, 0x09, 0x6a, 0xd5, 0x30, 0x36, 0xa5, 0x38, 0xbf, 0x40, 0xa3, 0x9e, 0x81, 0xf3, 0xd7, 0xfb],
   [0x7c, 0xe3, 0x39, 0x82, 0x9b, 0x2f, 0xff, 0x87, 0x34, 0x8e, 0x43, 0x44, 0xc4, 0xde, 0xe9, 0xcb],
   [0x54, 0x7b, 0x94, 0x32, 0xa6, 0xc2, 0x23, 0x3d, 0xee, 0x4c, 0x95, 0x0b, 0x42, 0xfa, 0xc3, 0x4e],
   [0x08, 0x2e, 0xa1, 0x66, 0x28, 0xd9, 0x24, 0xb2, 0x76, 0x5b, 0xa2, 0x49, 0x6d, 0x8b, 0xd1, 0x25],
   [0x72, 0xf8, 0xf6, 0x64, 0x86, 0x68, 0x98, 0x16, 0xd4, 0xa4, 0x5c, 0xcc, 0x5d, 0x65, 0xb6, 0x92],
   [0x6c, 0x70, 0x48, 0x50, 0xfd, 0xed, 0xb9, 0xda, 0x5e, 0x15, 0x46, 0x57, 0xa7, 0x8d, 0x9d, 0x84],
   [0x90, 0xd8, 0xab, 0x00, 0x8c, 0xbc, 0xd3, 0x0a, 0xf7, 0xe4, 0x58, 0x05, 0xb8, 0xb3, 0x45, 0x06],
   [0xd0, 0x2c, 0x1e, 0x8f, 0xca, 0x3f, 0x0f, 0x02, 0xc1, 0xaf, 0xbd, 0x03, 0x01, 0x13, 0x8a, 0x6b],
   [0x3a, 0x91, 0x11, 0x41, 0x4f, 0x67, 0xdc, 0xea, 0x97, 0xf2, 0xcf, 0xce, 0xf0, 0xb4, 0xe6, 0x73],
   [0x96, 0xac, 0x74, 0x22, 0xe7, 0xad, 0x35, 0x85, 0xe2, 0xf9, 0x37, 0xe8, 0x1c, 0x75, 0xdf, 0x6e],
   [0x47, 0xf1, 0x1a, 0x71, 0x1d, 0x29, 0xc5, 0x89, 0x6f, 0xb7, 0x62, 0x0e, 0xaa, 0x18, 0xbe, 0x1b],
   [0xfc, 0x56, 0x3e, 0x4b, 0xc6, 0xd2, 0x79, 0x20, 0x9a, 0xdb, 0xc0, 0xfe, 0x78, 0xcd, 0x5a, 0xf4],
   [0x1f, 0xdd, 0xa8, 0x33, 0x88, 0x07, 0xc7, 0x31, 0xb1, 0x12, 0x10, 0x59, 0x27, 0x80, 0xec, 0x5f],
   [0x60, 0x51, 0x7f, 0xa9, 0x19, 0xb5, 0x4a, 0x0d, 0x2d, 0xe5, 0x7a, 0x9f, 0x93, 0xc9, 0x9c, 0xef],
   [0xa0, 0xe0, 0x3b, 0x4d, 0xae, 0x2a, 0xf5, 0xb0, 0xc8, 0xeb, 0xbb, 0x3c, 0x83, 0x53, 0x99, 0x61],
   [0x17, 0x2b, 0x04, 0x7e, 0xba, 0x77, 0xd6, 0x26, 0xe1, 0x69, 0x14, 0x63, 0x55, 0x21, 0x0c, 0x7d]]

/-- A table's entry for x = 16*hi + lo (R212). -/
def tableEntry (rows : List (List Byte)) (x : Byte) : Byte :=
  (rows.getD (x.toNat / 16) []).getD (x.toNat % 16) 0

/-- `SBOX[x]` (R212). -/
def sbox (x : Byte) : Byte := tableEntry sboxRows x

/-- `INVSBOX[x]` (R213). -/
def invSbox (x : Byte) : Byte := tableEntry invSboxRows x

/-- `RCON[j]`, j = 1..10 (R214); RCON[0] is never used. -/
def rcon (j : Nat) : Byte :=
  [0x00, 0x01, 0x02, 0x04, 0x08, 0x10, 0x20, 0x40, 0x80, 0x1b, 0x36].getD j 0

/-- `RotWord(w)` = {w[23:0], w[31:24]} (R215). -/
def rotWord (w : Word) : Word := w.extractLsb' 0 24 ++ w.extractLsb' 24 8

/-- `SubWord(w)` (R215). -/
def subWord (w : Word) : Word := ((columnOf w).mapBytes sbox).word

/-- SubBytes (R216). -/
def subBytes (s : AesBlock) : AesBlock := s.mapColumns (AesColumn.mapBytes sbox)

/-- ShiftRows: s'[r][c] = s[r][(c + r) mod 4] (R217). -/
def shiftRows (s : AesBlock) : AesBlock :=
  { c0 := ⟨s.c0.r0, s.c1.r1, s.c2.r2, s.c3.r3⟩
    c1 := ⟨s.c1.r0, s.c2.r1, s.c3.r2, s.c0.r3⟩
    c2 := ⟨s.c2.r0, s.c3.r1, s.c0.r2, s.c1.r3⟩
    c3 := ⟨s.c3.r0, s.c0.r1, s.c1.r2, s.c2.r3⟩ }

/-- MixColumns on one column (R218); the constant is the second operand of •, which commutes (R211). -/
def mixColumn (k : AesColumn) : AesColumn :=
  { r0 := gmul k.r0 0x02 ^^^ gmul k.r1 0x03 ^^^ k.r2 ^^^ k.r3
    r1 := k.r0 ^^^ gmul k.r1 0x02 ^^^ gmul k.r2 0x03 ^^^ k.r3
    r2 := k.r0 ^^^ k.r1 ^^^ gmul k.r2 0x02 ^^^ gmul k.r3 0x03
    r3 := gmul k.r0 0x03 ^^^ k.r1 ^^^ k.r2 ^^^ gmul k.r3 0x02 }

/-- MixColumns (R218). -/
def mixColumns (s : AesBlock) : AesBlock := s.mapColumns mixColumn

/-- The XOR of two columns, byte by byte. -/
def xorColumn (a b : AesColumn) : AesColumn :=
  { r0 := a.r0 ^^^ b.r0, r1 := a.r1 ^^^ b.r1, r2 := a.r2 ^^^ b.r2, r3 := a.r3 ^^^ b.r3 }

/-- AddRoundKey with round key r, words RK[4r .. 4r+3] (R220). -/
def addRoundKey (rk : Vector Word 44) (r : Fin 11) (s : AesBlock) : AesBlock :=
  { c0 := xorColumn s.c0 (columnOf rk[4 * r.val])
    c1 := xorColumn s.c1 (columnOf rk[4 * r.val + 1])
    c2 := xorColumn s.c2 (columnOf rk[4 * r.val + 2])
    c3 := xorColumn s.c3 (columnOf rk[4 * r.val + 3]) }

/-- InvSubBytes (R221). -/
def invSubBytes (s : AesBlock) : AesBlock := s.mapColumns (AesColumn.mapBytes invSbox)

/-- InvShiftRows: s'[r][c] = s[r][(c - r) mod 4] (R222). -/
def invShiftRows (s : AesBlock) : AesBlock :=
  { c0 := ⟨s.c0.r0, s.c3.r1, s.c2.r2, s.c1.r3⟩
    c1 := ⟨s.c1.r0, s.c0.r1, s.c3.r2, s.c2.r3⟩
    c2 := ⟨s.c2.r0, s.c1.r1, s.c0.r2, s.c3.r3⟩
    c3 := ⟨s.c3.r0, s.c2.r1, s.c1.r2, s.c0.r3⟩ }

/-- InvMixColumns on one column (R223). -/
def invMixColumn (k : AesColumn) : AesColumn :=
  { r0 := gmul k.r0 0x0e ^^^ gmul k.r1 0x0b ^^^ gmul k.r2 0x0d ^^^ gmul k.r3 0x09
    r1 := gmul k.r0 0x09 ^^^ gmul k.r1 0x0e ^^^ gmul k.r2 0x0b ^^^ gmul k.r3 0x0d
    r2 := gmul k.r0 0x0d ^^^ gmul k.r1 0x09 ^^^ gmul k.r2 0x0e ^^^ gmul k.r3 0x0b
    r3 := gmul k.r0 0x0b ^^^ gmul k.r1 0x0d ^^^ gmul k.r2 0x09 ^^^ gmul k.r3 0x0e }

/-- InvMixColumns (R223). -/
def invMixColumns (s : AesBlock) : AesBlock := s.mapColumns invMixColumn

/-- The next word of the key schedule from the words so far, newest first: i is their number (R219). -/
def nextKeyWord (w : List Word) : Word :=
  let temp := w.getD 0 0
  let temp := if w.length % 4 = 0 then subWord (rotWord temp) ^^^ be32 (rcon (w.length / 4)) 0 0 0 else temp
  w.getD 3 0 ^^^ temp

/-- `n` more key-schedule words, newest first (R219). -/
def extendKey : Nat → List Word → List Word
  | 0, w => w
  | n + 1, w => extendKey n (nextKeyWord w :: w)

/-- `KeyExpansion(key)` (R219); the key is its four big-endian words, w[i] = BE32(key[4i..4i+3]) (R76, R230). -/
def keyExpansion (key : Vector Word 4) : Vector Word 44 :=
  let w := (extendKey 40 key.toList.reverse).reverse
  Vector.ofFn fun i => w.getD i.val 0

/-- One of the nine full rounds: SubBytes, ShiftRows, MixColumns, AddRoundKey (R224, R225). -/
def fullRound (rk : Vector Word 44) (s : AesBlock) (r : Fin 11) : AesBlock :=
  addRoundKey rk r (mixColumns (shiftRows (subBytes s)))

/-- The final round, without MixColumns, under round key 10 (R224, R225). -/
def finalRound (rk : Vector Word 44) (s : AesBlock) : AesBlock :=
  addRoundKey rk 10 (shiftRows (subBytes s))

/-- `Cipher(in, RK)` (R224). -/
def cipher (s : AesBlock) (rk : Vector Word 44) : AesBlock :=
  finalRound rk (([1, 2, 3, 4, 5, 6, 7, 8, 9] : List (Fin 11)).foldl (fullRound rk) (addRoundKey rk 0 s))

/-- One of the nine inverse rounds: InvShiftRows, InvSubBytes, AddRoundKey, InvMixColumns (R229). -/
def invFullRound (rk : Vector Word 44) (s : AesBlock) (r : Fin 11) : AesBlock :=
  invMixColumns (addRoundKey rk r (invSubBytes (invShiftRows s)))

/-- The last inverse round, under round key 0 (R229). -/
def invFinalRound (rk : Vector Word 44) (s : AesBlock) : AesBlock :=
  addRoundKey rk 0 (invSubBytes (invShiftRows s))

/-- `InvCipher(in, RK)` (R229), with the unmodified schedule in reverse order. -/
def invCipher (s : AesBlock) (rk : Vector Word 44) : AesBlock :=
  invFinalRound rk (([9, 8, 7, 6, 5, 4, 3, 2, 1] : List (Fin 11)).foldl (invFullRound rk) (addRoundKey rk 10 s))

end Sys2Proof.Machine
end

