-- ==== Sys2Proof/Machine/Flags.lean ====
section
/-! DEFINITION. STATUS and ERR (10_state.md R24, R38; 60_exceptions.md R281) and the sequence condition (R287). -/

namespace Sys2Proof.Machine

/-- The value of ERR for each rejection (R281); ERR_NONE is 0. -/
def ErrCode.bits : ErrCode → BitVec 4
  | .busy => 1
  | .opcode => 2
  | .arg => 3
  | .sequence => 4

/-- The 2-bit code of SHA_STATE (R24, R34). -/
def ShaState.bits : ShaState → BitVec 2
  | .uninit => 0
  | .active => 1
  | .final => 2

/-- The layout of STATUS, bit 31 on the left: 0, ERR[19:16], 0, BUFCNT[13:8], 0, HMAC_INNER[3], SHA_STATE[2:1], BUSY[0] (R24, R260). -/
def packStatus (err : BitVec 4) (bufcnt : BitVec 6) (inner : BitVec 1) (sha : BitVec 2) (busy : BitVec 1) : Word :=
  0#12 ++ err ++ 0#2 ++ bufcnt ++ 0#4 ++ inner ++ sha ++ busy

/-- STATUS as a read returns it, given the draw of that read: while BUSY = 1 only BUSY, ERR and the reserved bits are exact (R24, R260). -/
def State.statusWord (s : State) (draw : Word) : Word :=
  if s.busy then
    packStatus s.err (draw.extractLsb' 8 6) (draw.extractLsb' 3 1) (draw.extractLsb' 1 2) 1
  else
    packStatus s.err s.bufcnt (BitVec.ofBool s.hmacInner) s.shaState.bits 0

/-- `SeqOK(op)` (R287), read from the state at the CMD write. -/
def State.seqOK (s : State) : Instr → Bool
  | .nop => true
  | .shaInit => true
  | .shaUpdate _ => decide (s.shaState = .active)
  | .shaFinal => decide (s.shaState = .active) && !s.hmacInner
  | .hmacKey _ => !s.hmacInner
  | .hmacKeyDigest => decide (s.shaState = .final)
  | .hmacStart => true
  | .hmacFinish => s.hmacInner
  | .aesKeyexp => true
  | .aesEnc => true
  | .aesDec => true
  | .clrErr => true

end Sys2Proof.Machine
end

