-- ==== Sys2Proof/Machine/Ops.lean ====
section
/-! DEFINITION. The operations every command and every access runs through: rejecting (60_exceptions.md R282; the block takes no
traps, R290), accepting and issuing (43_control.md R262, R283), completing (R262), free values, and reset (R41, R310). -/

namespace Sys2Proof.Machine

/-- What one step answers. -/
abbrev Result := Host.Outcome State Fault Refusal

/-- `raise Reject(code)` (R282): ERR takes the code and nothing else changes. -/
def State.reject (s : State) (code : ErrCode) : State := { s with err := code.bits }

/-- LAT of the acceptance that happens now (R6, R262): the first listed latency, else a free value. Log 2. -/
def State.nextLatency (s : State) : Nat := s.latencies.headD (Config.latency s.fresh)

/-- The state after `nextLatency` has been used up. -/
def State.takeLatency (s : State) : State :=
  match s.latencies with
  | [] => { s with fresh := s.fresh + 1 }
  | _ :: rest => { s with latencies := rest }

/-- PEND <- (op, len), BUSY <- 1 (R262), with `n` steps to pass before the engine's own step. -/
def State.setPending (s : State) (i : Instr) (n : Nat) : State :=
  { s with busy := true, pend := some i, wait := n }

/-- PEND <- none, BUSY <- 0: the end of every completion step (R262). -/
def State.clearPending (s : State) : State := { s with busy := false, pend := none }

/-- An accepted command (R262). With LAT = 0 its completion is performed in the CMD write itself, one of the schedules R262
admits; with LAT = n + 1 it is pending, `n` steps pass, and the engine performs it in a step of its own. Log 2. -/
def State.accept (s : State) (i : Instr) (perform : State → State) : State :=
  match s.nextLatency with
  | 0 => perform s.takeLatency
  | n + 1 => s.takeLatency.setPending i n

/-- The checks of R283 in their order, then acceptance: what a CMD write of the command does (R262). `perform` is the command's
completion pseudocode. -/
def State.issue (s : State) (i : Instr) (perform : State → State) : Result :=
  if s.busy then .next (s.reject .busy)
  else if i.wellFormed then
    if s.seqOK i then .next (s.accept i perform) else .next (s.reject .sequence)
  else .next (s.reject .arg)

/-- One step passes for a pending command. -/
def State.tick (s : State) : State := { s with wait := s.wait - 1 }

/-- The free value of this read is used up (R266). -/
def State.record (s : State) (w : Word) : State :=
  { s with reads := w :: s.reads, fresh := s.fresh + 1 }

/-- Every element of the block at its reset value (R41, R311); the outside world is as it was. -/
def State.resetBlock (s : State) : State :=
  { State.reset with
    inReset := s.inReset, inputs := s.inputs, reads := s.reads, latencies := s.latencies, fresh := s.fresh }

end Sys2Proof.Machine
end

