-- ==== Sys2Proof/Machine/Aes.lean ====
section
/-! DEFINITION. The AES-128 commands (42_aes128.md R227, R228, R230 to R232). None has a sequence precondition. -/

namespace Sys2Proof.Machine

/-- Completion of AES_KEYEXP (R230). -/
def performAesKeyexp (s : State) : State := { s with rk := keyExpansion s.dinBlock }

/-- AES_KEYEXP (R230). -/
def execAesKeyexp (s : State) : Result := s.issue .aesKeyexp performAesKeyexp

/-- Completion of AES_ENC (R231); RK is used as it is (R228). -/
def performAesEnc (s : State) : State :=
  { s with aesout := unloadBlock (cipher (loadBlock s.dinBlock) s.rk) }

/-- AES_ENC (R231). -/
def execAesEnc (s : State) : Result := s.issue .aesEnc performAesEnc

/-- Completion of AES_DEC (R232). -/
def performAesDec (s : State) : State :=
  { s with aesout := unloadBlock (invCipher (loadBlock s.dinBlock) s.rk) }

/-- AES_DEC (R232). -/
def execAesDec (s : State) : Result := s.issue .aesDec performAesDec

end Sys2Proof.Machine
end

