-- ==== Sys2Proof/Machine/Control.lean ====
section
/-! DEFINITION. The control commands NOP and CLR_ERR (43_control.md R263, R264). -/

namespace Sys2Proof.Machine

/-- Completion of NOP: no state change (R263). -/
def performNop (s : State) : State := s

/-- NOP (R263): no precondition besides BUSY = 0. -/
def execNop (s : State) : Result := s.issue .nop performNop

/-- CLR_ERR (R264): immediate, also while BUSY = 1, with no completion step. -/
def execClrErr (s : State) : Result := .next { s with err := 0 }

end Sys2Proof.Machine
end

