-- ==== Sys2Proof/Machine/Sha256.lean ====
section
/-! DEFINITION. The pure SHA-256 functions (40_sha256.md R120 to R130, R133 to R135, R139). -/

namespace Sys2Proof.Machine

/-- `SHR(n, x)` (R120). -/
def shr (n : Nat) (x : Word) : Word := x >>> n

/-- `ROTR(n, x)`, for 0 < n < 32 (R120). -/
def rotr (n : Nat) (x : Word) : Word := (x >>> n) ||| (x <<< (32 - n))

/-- `Ch(x, y, z)` (R121). -/
def ch (x y z : Word) : Word := (x &&& y) ^^^ (~~~x &&& z)

/-- `Maj(x, y, z)` (R121). -/
def maj (x y z : Word) : Word := (x &&& y) ^^^ (x &&& z) ^^^ (y &&& z)

/-- Σ0 (R122). -/
def bigSigma0 (x : Word) : Word := rotr 2 x ^^^ rotr 13 x ^^^ rotr 22 x

/-- Σ1 (R122). -/
def bigSigma1 (x : Word) : Word := rotr 6 x ^^^ rotr 11 x ^^^ rotr 25 x

/-- σ0 (R123). -/
def smallSigma0 (x : Word) : Word := rotr 7 x ^^^ rotr 18 x ^^^ shr 3 x

/-- σ1 (R123). -/
def smallSigma1 (x : Word) : Word := rotr 17 x ^^^ rotr 19 x ^^^ shr 10 x

/-- `IV[0..7]` (R124). -/
def iv : Vector Word 8 :=
  #v[0x6a09e667, 0xbb67ae85, 0x3c6ef372, 0xa54ff53a, 0x510e527f, 0x9b05688c, 0x1f83d9ab, 0x5be0cd19]

/-- `K[0..63]`, row by row (R125). -/
def roundConstants : List Word :=
  [0x428a2f98, 0x71374491, 0xb5c0fbcf, 0xe9b5dba5, 0x3956c25b, 0x59f111f1, 0x923f82a4, 0xab1c5ed5] ++
  [0xd807aa98, 0x12835b01, 0x243185be, 0x550c7dc3, 0x72be5d74, 0x80deb1fe, 0x9bdc06a7, 0xc19bf174] ++
  [0xe49b69c1, 0xefbe4786, 0x0fc19dc6, 0x240ca1cc, 0x2de92c6f, 0x4a7484aa, 0x5cb0a9dc, 0x76f988da] ++
  [0x983e5152, 0xa831c66d, 0xb00327c8, 0xbf597fc7, 0xc6e00bf3, 0xd5a79147, 0x06ca6351, 0x14292967] ++
  [0x27b70a85, 0x2e1b2138, 0x4d2c6dfc, 0x53380d13, 0x650a7354, 0x766a0abb, 0x81c2c92e, 0x92722c85] ++
  [0xa2bfe8a1, 0xa81a664b, 0xc24b8b70, 0xc76c51a3, 0xd192e819, 0xd6990624, 0xf40e3585, 0x106aa070] ++
  [0x19a4c116, 0x1e376c08, 0x2748774c, 0x34b0bcb5, 0x391c0cb3, 0x4ed8aa4a, 0x5b9cca4f, 0x682e6ff3] ++
  [0x748f82ee, 0x78a5636f, 0x84c87814, 0x8cc70208, 0x90befffa, 0xa4506ceb, 0xbef9a3f7, 0xc67178f2]

/-- The sixteen big-endian message words of a block (R126). -/
def messageWords (b : Vector Byte 64) : List Word :=
  (List.finRange 16).map fun t => be32 b[4 * t.val] b[4 * t.val + 1] b[4 * t.val + 2] b[4 * t.val + 3]

/-- The next schedule word from the words so far, newest first: σ1(W[t-2]) + W[t-7] + σ0(W[t-15]) + W[t-16] (R127). -/
def nextScheduleWord (w : List Word) : Word :=
  smallSigma1 (w.getD 1 0) + w.getD 6 0 + smallSigma0 (w.getD 14 0) + w.getD 15 0

/-- `n` more schedule words, newest first (R127). -/
def extendSchedule : Nat → List Word → List Word
  | 0, w => w
  | n + 1, w => extendSchedule n (nextScheduleWord w :: w)

/-- `W[0..63]` (R127). -/
def schedule (b : Vector Byte 64) : List Word := (extendSchedule 48 (messageWords b).reverse).reverse

/-- The eight working variables (R128). -/
structure Working where
  a : Word
  b : Word
  c : Word
  d : Word
  e : Word
  f : Word
  g : Word
  h : Word
deriving DecidableEq, Repr

/-- Round t with K[t] and W[t] (R128). -/
def sha256Round (v : Working) (kt wt : Word) : Working :=
  let t1 := v.h + bigSigma1 v.e + ch v.e v.f v.g + kt + wt
  let t2 := bigSigma0 v.a + maj v.a v.b v.c
  { a := t1 + t2, b := v.a, c := v.b, d := v.c, e := v.d + t1, f := v.e, g := v.f, h := v.g }

/-- The 64 rounds over a block, from the chaining value (R129). -/
def runRounds (hin : Vector Word 8) (b : Vector Byte 64) : Working :=
  (roundConstants.zip (schedule b)).foldl (fun v kw => sha256Round v kw.1 kw.2)
    { a := hin[0], b := hin[1], c := hin[2], d := hin[3], e := hin[4], f := hin[5], g := hin[6], h := hin[7] }

/-- `Compress(Hin, B)` (R129). -/
def compress (hin : Vector Word 8) (b : Vector Byte 64) : Vector Word 8 :=
  let v := runRounds hin b
  #v[hin[0] + v.a, hin[1] + v.b, hin[2] + v.c, hin[3] + v.d,
     hin[4] + v.e, hin[5] + v.f, hin[6] + v.g, hin[7] + v.h]

/-- The number of zero bytes after 0x80, for `n` buffered bytes: z = (55 - n) mod 64 (R133). -/
def padZeros (n : Nat) : Nat := (119 - n) % 64

/-- The padding after `n` buffered bytes of a message of `bitlen` bits: 0x80, zeros, the length (R133). -/
def padding (n : Nat) (bitlen : BitVec 64) : List Byte :=
  0x80 :: List.replicate (padZeros n) 0 ++ beBytes64 bitlen

/-- The whole 64-byte blocks of a byte sequence, in order (R133). -/
def blocks (p : List Byte) : List (Vector Byte 64) :=
  (List.range (p.length / 64)).map fun k => blockOf (p.drop (64 * k))

/-- `for each 64-byte block P_k of P, in order: H <- Compress(H, P_k)` (R133). -/
def compressAll (h : Vector Word 8) (p : List Byte) : Vector Word 8 := (blocks p).foldl compress h

/-- One-shot SHA-256 of a message, as its eight digest words (R139): the padded message, compressed block by block from IV. -/
def sha256 (m : List Byte) : Vector Word 8 :=
  compressAll iv (m ++ padding (m.length % 64) (BitVec.ofNat 64 (8 * m.length)))

end Sys2Proof.Machine
end

