-- ==== Sys2Proof/Machine/ShaContext.lean ====
section
/-! DEFINITION. The streaming context (40_sha256.md R131 to R135): what the SHA and HMAC commands do to H, BUF, BUFCNT, BITLEN
and SHA_STATE. -/

namespace Sys2Proof.Machine

/-- `CtxInit()` (R131). -/
def State.ctxInit (s : State) : State :=
  { s with h := iv, bufcnt := 0, bitlen := 0, buf := Vector.replicate 64 0, shaState := .active }

/-- One byte of `Absorb` (R132): it is stored at BUF[BUFCNT], and a block that is full is compressed at once. -/
def State.absorbByte (s : State) (b : Byte) : State :=
  let buf := s.buf.set s.bufcnt.toNat b
  if s.bufcnt.toNat + 1 = 64 then { s with buf := buf, h := compress s.h buf, bufcnt := 0 }
  else { s with buf := buf, bufcnt := s.bufcnt + 1 }

/-- BITLEN <- (BITLEN + 8*n) mod 2^64 (R132, R135). -/
def State.addBits (s : State) (n : Nat) : State := { s with bitlen := s.bitlen + BitVec.ofNat 64 (8 * n) }

/-- `Absorb(D)` (R132). -/
def State.absorb (s : State) (d : List Byte) : State := (d.foldl State.absorbByte s).addBits d.length

/-- The final block or blocks: BUF[0..BUFCNT-1] and the padding (R133). -/
def State.finalBytes (s : State) : List Byte :=
  s.buf.toList.take s.bufcnt.toNat ++ padding s.bufcnt.toNat s.bitlen

/-- `PadFinal()` (R133). Its digest is `bytesOf h` of the state it leaves; BITLEN and BUF stay. -/
def State.padFinal (s : State) : State :=
  { s with h := compressAll s.h s.finalBytes, bufcnt := 0 }

/-- `for i = 0..7: DIGEST[i] <- H[i]` and SHA_STATE <- FINAL (R138, R187). -/
def State.publish (s : State) : State := { s with digest := s.h, shaState := .final }

end Sys2Proof.Machine
end

