-- ==== Sys2Proof/Machine/Hmac.lean ====
section
/-! DEFINITION. The HMAC-SHA256 wrapper (41_hmac.md R180 to R187): key block, pads, the four commands, and the tag as a pure
function (R183). -/

namespace Sys2Proof.Machine

/-- The key block of the first `m` bytes of a sequence: zero-padded on the right to 64 bytes (R180). -/
def keyBlock (m : Nat) (k : List Byte) : Vector Byte 64 :=
  Vector.ofFn fun j => if j.val < m then k.getD j.val 0 else 0

/-- A pad: every byte of the key block XORed with a constant (R182). -/
def xorPad (k0 : Vector Byte 64) (c : Byte) : List Byte := k0.toList.map fun b => b ^^^ c

/-- `ipad` (R182). -/
def ipad (k0 : Vector Byte 64) : List Byte := xorPad k0 0x36

/-- `opad` (R182). -/
def opad (k0 : Vector Byte 64) : List Byte := xorPad k0 0x5c

/-- K0 for a key of any length (R180, R181): a key longer than 64 bytes is replaced by its digest. -/
def normalizeKey (k : List Byte) : Vector Byte 64 :=
  if k.length ≤ 64 then keyBlock k.length k else keyBlock 32 (bytesOf (sha256 k).toList)

/-- The tag under a key block, SHA256(opad || SHA256(ipad || msg)), as eight words (R183). -/
def hmacTag (k0 : Vector Byte 64) (msg : List Byte) : Vector Word 8 :=
  sha256 (opad k0 ++ bytesOf (sha256 (ipad k0 ++ msg)).toList)

/-- `HMAC(k, msg)` (R183). -/
def hmacSha256 (k msg : List Byte) : Vector Word 8 := hmacTag (normalizeKey k) msg

/-- Completion of HMAC_KEY LEN (R184). -/
def performHmacKey (len : BitVec 7) (s : State) : State :=
  { s with k0 := keyBlock len.toNat (s.dinBytes len) }

/-- HMAC_KEY LEN (R184): needs HMAC_INNER = 0. -/
def execHmacKey (len : BitVec 7) (s : State) : Result := s.issue (.hmacKey len) (performHmacKey len)

/-- Completion of HMAC_KEY_DIGEST (R185). -/
def performHmacKeyDigest (s : State) : State := { s with k0 := keyBlock 32 s.digestBytes }

/-- HMAC_KEY_DIGEST (R185): needs SHA_STATE = FINAL. -/
def execHmacKeyDigest (s : State) : Result := s.issue .hmacKeyDigest performHmacKeyDigest

/-- Completion of HMAC_START (R186). -/
def performHmacStart (s : State) : State := { s.ctxInit.absorb (ipad s.k0) with hmacInner := true }

/-- HMAC_START (R186): no precondition besides BUSY = 0. -/
def execHmacStart (s : State) : Result := s.issue .hmacStart performHmacStart

/-- The outer pass of HMAC_FINISH: CtxInit, Absorb(opad), Absorb(inner), PadFinal (R187). -/
def State.outerPass (s : State) (inner : List Byte) : State :=
  ((s.ctxInit.absorb (opad s.k0)).absorb inner).padFinal

/-- Completion of HMAC_FINISH (R187). -/
def performHmacFinish (s : State) : State :=
  let closed := s.padFinal
  { (closed.outerPass (bytesOf closed.h.toList)).publish with hmacInner := false, k0 := Vector.replicate 64 0 }

/-- HMAC_FINISH (R187): needs HMAC_INNER = 1. -/
def execHmacFinish (s : State) : Result := s.issue .hmacFinish performHmacFinish

end Sys2Proof.Machine
end

