-- ==== Sys2Proof/Machine/Sha.lean ====
section
/-! DEFINITION. The SHA-256 commands (40_sha256.md R136 to R138): for each its completion step and its meaning at the CMD write. -/

namespace Sys2Proof.Machine

/-- Completion of SHA_INIT (R136). -/
def performShaInit (s : State) : State := { s.ctxInit with hmacInner := false }

/-- SHA_INIT (R136): no precondition besides BUSY = 0. -/
def execShaInit (s : State) : Result := s.issue .shaInit performShaInit

/-- Completion of SHA_UPDATE LEN (R137). -/
def performShaUpdate (len : BitVec 7) (s : State) : State := s.absorb (s.dinBytes len)

/-- SHA_UPDATE LEN (R137): needs SHA_STATE = ACTIVE. -/
def execShaUpdate (len : BitVec 7) (s : State) : Result := s.issue (.shaUpdate len) (performShaUpdate len)

/-- Completion of SHA_FINAL (R138). -/
def performShaFinal (s : State) : State := s.padFinal.publish

/-- SHA_FINAL (R138): needs SHA_STATE = ACTIVE and HMAC_INNER = 0. -/
def execShaFinal (s : State) : Result := s.issue .shaFinal performShaFinal

end Sys2Proof.Machine
end

