-- ==== Sys2Proof/Machine/Dispatch.lean ====
section
/-! DEFINITION. The meaning of each command at a CMD write (43_control.md R262): one arm per row of the opcode table. -/

namespace Sys2Proof.Machine

def exec (i : Instr) (s : State) : Host.Outcome State Fault Refusal :=
  match i with
  | .nop => Sys2Proof.Machine.execNop s
  | .shaInit => Sys2Proof.Machine.execShaInit s
  | .shaUpdate len => Sys2Proof.Machine.execShaUpdate len s
  | .shaFinal => Sys2Proof.Machine.execShaFinal s
  | .hmacKey len => Sys2Proof.Machine.execHmacKey len s
  | .hmacKeyDigest => Sys2Proof.Machine.execHmacKeyDigest s
  | .hmacStart => Sys2Proof.Machine.execHmacStart s
  | .hmacFinish => Sys2Proof.Machine.execHmacFinish s
  | .aesKeyexp => Sys2Proof.Machine.execAesKeyexp s
  | .aesEnc => Sys2Proof.Machine.execAesEnc s
  | .aesDec => Sys2Proof.Machine.execAesDec s
  | .clrErr => Sys2Proof.Machine.execClrErr s

end Sys2Proof.Machine
end

