-- ==== Sys2Proof/Machine/Engine.lean ====
section
/-! DEFINITION. The engine agent (43_control.md R262): its one step performs the pending command and ends the busy interval. -/

namespace Sys2Proof.Machine

/-- The completion pseudocode of each command (R262). CLR_ERR has none and is never pending (R264; log 7). -/
def perform (i : Instr) (s : State) : State :=
  match i with
  | .nop => performNop s
  | .shaInit => performShaInit s
  | .shaUpdate len => performShaUpdate len s
  | .shaFinal => performShaFinal s
  | .hmacKey len => performHmacKey len s
  | .hmacKeyDigest => performHmacKeyDigest s
  | .hmacStart => performHmacStart s
  | .hmacFinish => performHmacFinish s
  | .aesKeyexp => performAesKeyexp s
  | .aesEnc => performAesEnc s
  | .aesDec => performAesDec s
  | .clrErr => s

/-- `EngineStep()` (R262), taken when BUSY = 1: one atomic transition. -/
def engineStep (s : State) : Result :=
  match s.pend with
  | some i => .next (perform i s).clearPending
  | none => .fault .engineWithoutCommand

end Sys2Proof.Machine
end

