-- ==== Sys2Proof/Machine/Bus.lean ====
section
/-! DEFINITION. The host's accesses (20_memory.md R60 to R70; 43_control.md R260 to R262, R265, R266), the reset input
(70_reset_and_hazards.md R310, R311), and whose turn a step is. -/

namespace Sys2Proof.Machine

/-- The register at a word offset of the window (R61); every other offset is reserved (R66). -/
def regAt (off : Nat) : Reg :=
  if off = 0x000 then .id
  else if off = 0x004 then .cmd
  else if off = 0x008 then .status
  else if off = 0x00C then .bitlenLo
  else if off = 0x010 then .bitlenHi
  else if h : 0x040 ≤ off ∧ off < 0x080 then .din ⟨(off - 0x040) / 4, by omega⟩
  else if h : 0x080 ≤ off ∧ off < 0x0A0 then .digest ⟨(off - 0x080) / 4, by omega⟩
  else if h : 0x0A0 ≤ off ∧ off < 0x0B0 then .aesout ⟨(off - 0x0A0) / 4, by omega⟩
  else if h : 0x100 ≤ off ∧ off < 0x1B0 then .rk ⟨(off - 0x100) / 4, by omega⟩
  else .reserved

/-- The offset of a host address, if it lies in the window BASE .. BASE + 0x1FF (R60, R61). Log 4. -/
def windowOffset (addr : Nat) : Option Nat :=
  if Config.base ≤ addr ∧ addr < Config.base + 0x200 then some (addr - Config.base) else none

/-- Why the bus does not admit an access, or nothing where it does: outside the window (R61), in reset (R310), not 32 bits
wide (R62), not word-aligned (R63), in this order (log 5). -/
def State.refusal (s : State) (off : Nat) (width : Width) : Option Result :=
  if 0x200 ≤ off then some (.refused (.outsideWindow off))
  else if s.inReset then some (.fault .accessDuringReset)
  else if width ≠ .w32 then some (.fault (.busFault .subWordAccess off))
  else if off % 4 ≠ 0 then some (.fault (.busFault .misaligned off))
  else none

/-- The word a read of a register returns (R260, R266), given the draw of that read. -/
def State.readReg (s : State) (r : Reg) (draw : Word) : Word :=
  match r with
  | .id => 0x436F3137
  | .cmd => 0
  | .status => s.statusWord draw
  | .bitlenLo => if s.busy then draw else s.bitlen.extractLsb' 0 32
  | .bitlenHi => if s.busy then draw else s.bitlen.extractLsb' 32 32
  | .din i => s.din[i]
  | .digest i => if s.busy then draw else s.digest[i]
  | .aesout i => if s.busy then draw else s.aesout[i]
  | .rk i => if s.busy then draw else s.rk[i]
  | .reserved => 0

/-- `HostRead(off)` (R260): no state of the block changes; the word returned is recorded (log 9). -/
def hostRead (off : Nat) (width : Width) (s : State) : Result :=
  match s.refusal off width with
  | some stop => stop
  | none => .next (s.record (s.readReg (regAt off) (Config.draw s.fresh)))

/-- The error code of a word that is no command (R285, R286). -/
def DecodeReject.code : DecodeReject → ErrCode
  | .opcode => .opcode
  | .argument => .arg

/-- `IssueCommand(v)` (R262): the busy check comes before decoding, and CLR_ERR passes it (R283, R284). -/
def issueCommand (v : Word) (s : State) : Result :=
  if s.busy ∧ opField v ≠ 0x30 then .next (s.reject .busy)
  else
    match decode v with
    | .error r => .next (s.reject (DecodeReject.code r))
    | .ok i => exec i s

/-- What an admitted write of a register does (R261, R265, R67). -/
def State.writeReg (s : State) (r : Reg) (v : Word) : Result :=
  match r with
  | .cmd => issueCommand v s
  | .din i => if s.busy then .next (s.reject .busy) else .next { s with din := s.din.set i v }
  | .rk i => if s.busy then .next (s.reject .busy) else .next { s with rk := s.rk.set i v }
  | .id | .status | .bitlenLo | .bitlenHi | .digest _ | .aesout _ | .reserved => .next s

/-- `HostWrite(off, v)` (R261). -/
def hostWrite (off : Nat) (width : Width) (v : Word) (s : State) : Result :=
  match s.refusal off width with
  | some stop => stop
  | none => s.writeReg (regAt off) v

/-- One round of POLL (R98, R268): a read of STATUS; while its bit 0 is 1 the loop goes on. -/
def hostPoll (s : State) : Result :=
  match hostRead 0x008 .w32 s with
  | .next t =>
    if (t.reads.headD 0).getLsbD 0 then .next { t with inputs := .poll :: t.inputs } else .next t
  | .fault f => .fault f
  | .refused r => .refused r

/-- One input from outside (R69: one at a time, each in full before the next). -/
def takeInput (i : HostInput) (s : State) : Result :=
  match i with
  | .read off width => hostRead off width s
  | .write off width v => hostWrite off width v s
  | .poll => hostPoll s
  | .assertReset => .next { s.resetBlock with inReset := true }
  | .releaseReset => if s.inReset then .next { s.resetBlock with inReset := false } else .next s

/-- The engine's turn: a command is pending, its latency has passed, and the block is not in reset (R262, R311). Log 2. -/
def State.engineTurn (s : State) : Bool := s.busy && decide (s.wait = 0) && !s.inReset

/-- One transition of the two agents (R12, R262): the engine's step when its turn has come, else the host's next input, else
nothing happens but the passing of a step. Log 2. -/
def transition (s : State) : Result :=
  if s.engineTurn then engineStep s
  else
    match s.inputs with
    | [] => .next s.tick
    | i :: rest => takeInput i { s.tick with inputs := rest }

/-- The state in which the next transition is the host's write of `v` to CMD, performed with LAT = 0 (log 8). -/
def State.placeCommand (s : State) (v : Word) : State :=
  { s with
    inReset := false
    wait := if s.busy then s.wait + 1 else s.wait
    inputs := .write 0x004 .w32 v :: s.inputs
    latencies := 0 :: s.latencies }

end Sys2Proof.Machine
end

