-- ==== Sys2Proof/Machine/Step.lean ====
section
/-! DEFINITION. The step, and how a command word is placed for it. -/

namespace Sys2Proof.Machine

/-- One step of the machine: one transition of the host, the engine or the reset input (R12, R262). -/
def step (s : State) : Host.Outcome State Fault Refusal := transition s

/-- `s` with the command word of `nbits` bits as the host's next write to CMD, performed with LAT = 0 (log 8). -/
def State.withFetchWord (s : State) (nbits w : Nat) : State :=
  s.placeCommand (BitVec.ofNat 32 (w % 2 ^ nbits))

end Sys2Proof.Machine
end

