-- ==== Sys2Proof/Machine/HostProgram.lean ====
section
/-! DEFINITION. The host-program syntax (30_encoding.md R97, R98) and the source's operations as host programs (R99, R139,
R188), each by its expansion into the accesses of State.inputs. -/

namespace Sys2Proof.Machine

/-- An instruction of the host-program syntax (R97, R98). -/
inductive HostOp where
  /-- `WR <off>, <word>`. -/
  | wr (off : Nat) (v : Word)
  /-- `RD <off>`. -/
  | rd (off : Nat)
  /-- `CMD <MNEMONIC> [len]`. -/
  | cmd (i : Instr)
  /-- `POLL`. -/
  | poll
  /-- `LOADB <bytes>`, at most 64. -/
  | loadb (bs : List Byte)
  /-- `CHECK`. -/
  | check
  /-- `DO <MNEMONIC> [len]`. -/
  | doCmd (i : Instr)
deriving DecidableEq, Repr

/-- Word `k` of a packed byte string, zero beyond its end (R98, R64). -/
def packWord (bs : List Byte) (k : Nat) : Word :=
  be32 (bs.getD (4 * k) 0) (bs.getD (4 * k + 1) 0) (bs.getD (4 * k + 2) 0) (bs.getD (4 * k + 3) 0)

/-- What LOADB leaves in DIN: its packed words, and the old value of every later word (R98). -/
def State.loadBytes (s : State) (bs : List Byte) : State :=
  { s with din := Vector.ofFn fun k => if k.val < (bs.length + 3) / 4 then packWord bs k.val else s.din[k] }

/-- The accesses an instruction stands for (R97, R98). -/
def HostOp.expand : HostOp → List HostInput
  | .wr off v => [.write off .w32 v]
  | .rd off => [.read off .w32]
  | .cmd i => [.write 0x004 .w32 (encode i)]
  | .poll => [.poll]
  | .loadb bs => (List.range ((bs.length + 3) / 4)).map fun k => .write (0x040 + 4 * k) .w32 (packWord bs k)
  | .check => [.read 0x008 .w32]
  | .doCmd i => [.write 0x004 .w32 (encode i), .poll]

/-- A host program, placed as what the outside does next (log 8). -/
def State.withProgram (s : State) (p : List HostOp) : State :=
  { s with inputs := s.inputs ++ p.flatMap HostOp.expand }

/-- `LOADB c; DO SHA_UPDATE |c|` for each chunk c, in order (R139). -/
def updateChunks (chunks : List (List Byte)) : List HostOp :=
  chunks.flatMap fun c => [.loadb c, .doCmd (.shaUpdate (BitVec.ofNat 7 c.length))]

/-- `RD DIGEST[0..7]` (R139). -/
def readDigest : List HostOp := (List.range 8).map fun i => .rd (0x080 + 4 * i)

/-- `RD AESOUT[0..3]` (R99). -/
def readAesout : List HostOp := (List.range 4).map fun i => .rd (0x0A0 + 4 * i)

/-- The source's `sha256(data, len)`, with the data in chunks of 1..64 bytes (R139). -/
def sha256Program (chunks : List (List Byte)) : List HostOp :=
  .doCmd .shaInit :: updateChunks chunks ++ .doCmd .shaFinal :: readDigest

/-- The key load of the source's `hmac_sha256`: by HMAC_KEY up to 64 bytes, else through the digest (R188). -/
def hmacKeyProgram (keyChunks : List (List Byte)) : List HostOp :=
  if keyChunks.flatten.length ≤ 64 then
    [.loadb keyChunks.flatten, .doCmd (.hmacKey (BitVec.ofNat 7 keyChunks.flatten.length))]
  else
    .doCmd .shaInit :: updateChunks keyChunks ++ [.doCmd .shaFinal, .doCmd .hmacKeyDigest]

/-- The source's `hmac_sha256(key, key_len, msg, msg_len)`, key and message in chunks of 1..64 bytes (R188). -/
def hmacProgram (keyChunks msgChunks : List (List Byte)) : List HostOp :=
  hmacKeyProgram keyChunks ++ .doCmd .hmacStart :: updateChunks msgChunks ++ .doCmd .hmacFinish :: readDigest

/-- The source's `aes128_key_expansion(key)` (R99). -/
def aesKeyProgram (key : List Byte) : List HostOp :=
  .loadb key :: .doCmd .aesKeyexp :: (List.range 44).map fun i => .rd (0x100 + 4 * i)

/-- `WR RK[i], roundKeys[i]` for i = 0..43: the host's load of a schedule (R99, R228, R29). -/
def writeRk (roundKeys : Vector Word 44) : List HostOp := (List.finRange 44).map fun i => .wr (0x100 + 4 * i.val) roundKeys[i]

/-- The source's `aes128_encrypt_block(in, round_keys)` (R99): RK is written if the schedule is not already there, where `held` is
what RK holds when the program starts; then the block is loaded, encrypted and read. -/
def aesEncryptProgram (held roundKeys : Vector Word 44) (block : List Byte) : List HostOp :=
  (if held = roundKeys then [] else writeRk roundKeys) ++ .loadb block :: .doCmd .aesEnc :: readAesout

/-- The source's `decrypt` under the schedule in RK (R99). -/
def aesDecryptProgram (block : List Byte) : List HostOp := .loadb block :: .doCmd .aesDec :: readAesout

end Sys2Proof.Machine
end

