-- ==== Sys2Proof/Safety.lean ====
section
/-! DEFINITION. The invariants of the block (10_state.md R42) and what counts as a safe state: one from which no step stops. -/

namespace Sys2Proof.Machine

/-- R42, item by item, with what R262 adds about a pending command and R311 about reset. -/
structure State.Inv (s : State) : Prop where
  /-- Item 1. -/
  bufcnt_lt : s.bufcnt.toNat < 64
  /-- Item 2. -/
  inner_active : s.hmacInner = true → s.shaState = .active
  /-- Item 3. -/
  uninit_empty : s.shaState = .uninit → s.bufcnt = 0 ∧ s.bitlen = 0
  /-- Item 4. -/
  final_empty : s.shaState = .final → s.bufcnt = 0
  /-- Item 5. -/
  busy_iff_pend : s.busy = true ↔ s.pend ≠ none
  /-- Item 6. -/
  err_legal : s.err.toNat ≤ 4
  /-- Item 7. -/
  bitlen_bufcnt : s.shaState ≠ .final → s.bitlen.toNat % 512 = 8 * s.bufcnt.toNat % 512
  /-- A pending command passed the checks of R283, and nothing it reads has changed since (R262). -/
  pend_admitted : ∀ i, s.pend = some i → i.wellFormed = true ∧ s.seqOK i = true ∧ i ≠ .clrErr
  /-- Reset has abandoned the pending command (R311). -/
  reset_idle : s.inReset = true → s.busy = false
  /-- The model's own: no steps are counted while nothing is pending (log 2). -/
  idle_wait : s.busy = false → s.wait = 0

/-- An input the block answers: an aligned 32-bit access inside the window, or POLL (R61 to R63). -/
def HostInput.admissible : HostInput → Bool
  | .read off width => decide (width = .w32 ∧ off % 4 = 0 ∧ off < 0x200)
  | .write off width _ => decide (width = .w32 ∧ off % 4 = 0 ∧ off < 0x200)
  | .poll => true
  | .assertReset => false
  | .releaseReset => false

/-- A state from which no step stops: the invariants hold, the block is out of reset, and every input still to come is one
that the block answers. -/
structure Safe (s : State) : Prop where
  inv : s.Inv
  running : s.inReset = false
  inputs_admissible : ∀ i ∈ s.inputs, i.admissible = true

end Sys2Proof.Machine
end

