-- ==== Sys2Proof/Certificates/Slice0/Obligations.lean ====
section
/-! DEFINITION. The statements about the Cool17 crypto core that the provers settle. Each docstring names the rules it comes from. -/

open Sys2Proof Sys2Proof.Machine

/-! ## Words and commands (30_encoding.md) -/

/-- R93, R96: decoding the word of any command whose LEN is legal gives the command back. -/
def Obligations.DecodeEncodeRoundTrip : Prop :=
  ∀ i : Instr, i.wellFormed = true → decode (encode i) = .ok i

/-- R95, R96: a word that decodes to a command is exactly that command's word, and the command is well-formed; so no two words
are the same command. -/
def Obligations.EncodeDecodeRoundTrip : Prop :=
  ∀ (v : Word) (i : Instr), decode v = .ok i → encode i = v ∧ i.wellFormed = true

/-- R96 whole: when each of the two `Invalid` answers is given, which command every other word is, and that it is applied at the
write to CMD after the busy check. The fields are written as numbers: OP = v mod 256, LEN = v / 256 mod 128, v[31:15] = v / 2^15,
v[31:8] = v / 256. -/
def Obligations.DecodeFollowsTheDecodeRule : Prop :=
  ∀ v : Word,
    let op := v.toNat % 256
    let len := v.toNat / 256 % 128
    let known := op ∈ [0x00, 0x01, 0x02, 0x03, 0x10, 0x11, 0x12, 0x13, 0x20, 0x21, 0x22, 0x30]
    let usesLen := op = 0x02 ∨ op = 0x10
    let badArg := (usesLen ∧ (v.toNat / 2 ^ 15 ≠ 0 ∨ len > 64)) ∨ (¬ usesLen ∧ v.toNat / 256 ≠ 0)
    (¬ known → decode v = .error .opcode) ∧
    (known → badArg → decode v = .error .argument) ∧
    (known → ¬ badArg →
      ∃ i, decode v = .ok i ∧ (opcode i).toNat = op ∧ (lenOperand i).toNat = if usesLen then len else 0) ∧
    (∀ s : State, s.busy = true → op ≠ 0x30 → issueCommand v s = .next { s with err := 1 }) ∧
    (∀ (s : State) (i : Instr), s.busy = false ∨ op = 0x30 → decode v = .ok i → issueCommand v s = exec i s)

/-- R93, R97 and the decode table V-CTL-1: words written out from the spec, and what each decodes to. -/
def Obligations.WordsOfTheSpecDecode : Prop :=
  decode 0x00000000 = .ok .nop ∧ decode 0x00000001 = .ok .shaInit ∧ decode 0x00000302 = .ok (.shaUpdate 3) ∧
  decode 0x00000003 = .ok .shaFinal ∧ decode 0x00001410 = .ok (.hmacKey 20) ∧ decode 0x00000011 = .ok .hmacKeyDigest ∧
  decode 0x00000012 = .ok .hmacStart ∧ decode 0x00000013 = .ok .hmacFinish ∧ decode 0x00000020 = .ok .aesKeyexp ∧
  decode 0x00000021 = .ok .aesEnc ∧ decode 0x00000022 = .ok .aesDec ∧ decode 0x00000030 = .ok .clrErr ∧
  decode 0x00004102 = .error .argument ∧ decode 0x80000021 = .error .argument ∧ decode 0x00000104 = .error .opcode

/-! ## Issue, rejection, busy interval and completion (43_control.md R262; 60_exceptions.md R280 to R287) -/

/-- R262, R69: when it is not the engine's turn and the host's next access is the write of a command's word to CMD, the step is
the command's meaning on the state with that access taken and one step passed. -/
def Obligations.StepRunsTheDecodedCommand : Prop :=
  ∀ (s : State) (v : Word) (i : Instr) (rest : List HostInput),
    s.inReset = false → ¬ (s.busy = true ∧ s.wait = 0) → s.inputs = .write 0x004 .w32 v :: rest → decode v = .ok i →
    step s = exec i { s with wait := s.wait - 1, inputs := rest }

/-- The placed command word (log 8) is what the very next step runs, with LAT = 0, in any idle state. -/
def Obligations.PlacedWordRunsNext : Prop :=
  ∀ (s : State) (nbits w : Nat) (i : Instr), s.busy = false → decodeTableWord nbits w = some i →
    step (s.withFetchWord nbits w) =
      exec i { s with inReset := false, wait := s.wait - 1, latencies := 0 :: s.latencies }

/-- R284: while BUSY = 1 every command but CLR_ERR, and every word whose OP is not 0x30 whatever its other bits, sets ERR to
ERR_BUSY = 1 and changes nothing else: the pending command stays pending. -/
def Obligations.BusyRejectsCommands : Prop :=
  ∀ s : State, s.busy = true →
    (∀ i : Instr, i ≠ .clrErr → exec i s = .next { s with err := 1 }) ∧
    (∀ v : Word, v.toNat % 256 ≠ 0x30 → issueCommand v s = .next { s with err := 1 })

/-- R285 with R282: an idle block that is written a word with an undefined OP sets ERR to ERR_OPCODE = 2 and changes nothing
else. -/
def Obligations.UndefinedOpcodeRejected : Prop :=
  ∀ (s : State) (v : Word), s.busy = false →
    v.toNat % 256 ∉ [0x00, 0x01, 0x02, 0x03, 0x10, 0x11, 0x12, 0x13, 0x20, 0x21, 0x22, 0x30] →
    issueCommand v s = .next { s with err := 2 }

/-- R286 with R282 and R283: a word with a defined OP and a reserved bit set, or LEN > 64, sets ERR to ERR_ARG = 3 and changes
nothing else, before any sequence check; of a busy block this holds for CLR_ERR alone. LEN = 0 is no argument error. -/
def Obligations.BadArgumentRejected : Prop :=
  (∀ (s : State) (v : Word),
    let op := v.toNat % 256
    (s.busy = false ∨ op = 0x30) →
    (op ∈ [0x02, 0x10] ∧ (v.toNat / 2 ^ 15 ≠ 0 ∨ v.toNat / 256 % 128 > 64)) ∨
      (op ∈ [0x00, 0x01, 0x03, 0x11, 0x12, 0x13, 0x20, 0x21, 0x22, 0x30] ∧ v.toNat / 256 ≠ 0) →
    issueCommand v s = .next { s with err := 3 }) ∧
  decode 0x00000002 = .ok (.shaUpdate 0) ∧ decode 0x00000010 = .ok (.hmacKey 0)

/-- R287 with R282: which state admits each command. A command that is not admitted sets ERR to ERR_SEQUENCE = 4 and changes nothing
else; an admitted one leaves ERR, but for CLR_ERR. -/
def Obligations.SequenceConditionDecides : Prop :=
  ∀ (s : State) (i : Instr), s.busy = false → i.wellFormed = true →
    let admitted : Prop := match i with
      | .shaUpdate _ => s.shaState = .active
      | .shaFinal => s.shaState = .active ∧ s.hmacInner = false
      | .hmacKey _ => s.hmacInner = false
      | .hmacKeyDigest => s.shaState = .final
      | .hmacFinish => s.hmacInner = true
      | .nop | .shaInit | .hmacStart | .aesKeyexp | .aesEnc | .aesDec | .clrErr => True
    (¬ admitted → exec i s = .next { s with err := 4 }) ∧
    (admitted → ∃ t, exec i s = .next t ∧ t.err = if i = .clrErr then 0 else s.err)

/-- R262: an admitted command other than CLR_ERR whose latency is n + 1 becomes PEND and sets BUSY; ERR and everything else
stay. Counting the latency in steps is the model's choice (log 2). -/
def Obligations.AcceptedCommandBecomesPending : Prop :=
  ∀ (s : State) (i : Instr) (n : Nat) (l : List Nat),
    s.busy = false → i ≠ .clrErr → i.wellFormed = true → s.seqOK i = true → s.latencies = (n + 1) :: l →
    exec i s = .next { s with latencies := l, busy := true, pend := some i, wait := n }

/-- R262, R318: performed at once (LAT = 0) or pending and then performed by the engine's own step, an admitted command leaves
the same state. -/
def Obligations.CompletionDoesNotDependOnLatency : Prop :=
  ∀ (s : State) (i : Instr) (l : List Nat),
    s.busy = false → s.pend = none → s.wait = 0 → s.inReset = false →
    i ≠ .clrErr → i.wellFormed = true → s.seqOK i = true → s.latencies = 0 :: l →
    ∃ t, exec i s = .next t ∧
      step { s with latencies := l, busy := true, pend := some i, wait := 0 } = .next t

/-- R262, R322: with the host idle, a pending command is performed within `wait` + 1 steps, exactly as its completion step says,
and then BUSY = 0 and PEND = none. -/
def Obligations.PendingCommandCompletes : Prop :=
  ∀ (s : State) (i : Instr), s.busy = true → s.pend = some i → s.inReset = false → s.inputs = [] →
    core.run (s.wait + 1) s = .next { perform i { s with wait := 0 } with busy := false, pend := none }

/-- R268, R260: POLL ends. When nothing is pending it ends with its first read; when a command is pending it ends with the first
read after the engine has performed the command. Either way the last word read is STATUS with bit 0 = 0, every word before it has
bit 0 = 1, and beyond the completion only the reads are added (`reads`, `wait` and `fresh` are the model's own: log 9, log 2,
log 3). -/
def Obligations.PollWaitsForCompletion : Prop :=
  ∀ (s : State) (rest : List HostInput), s.inReset = false → s.inputs = .poll :: rest →
    (s.busy = false → ∃ w : Word, w.toNat % 2 = 0 ∧
      hostRead 0x008 .w32 s = .next { s with reads := w :: s.reads, fresh := s.fresh + 1 } ∧
      step s = .next { s with inputs := rest, reads := w :: s.reads, wait := s.wait - 1, fresh := s.fresh + 1 }) ∧
    (∀ i, s.busy = true → s.pend = some i → ∃ (w : Word) (ws : List Word),
      w.toNat % 2 = 0 ∧ ws.length = s.wait ∧ (∀ x ∈ ws, x.toNat % 2 = 1) ∧
      core.run (s.wait + 2) s = .next { perform i { s with wait := 0 } with
        busy := false, pend := none, inputs := rest, reads := w :: ws ++ s.reads, fresh := s.fresh + s.wait + 1 })

/-- R280: no command stops the machine and no data value causes an error: every command, in every state, answers a next state. -/
def Obligations.CommandsNeverStop : Prop :=
  ∀ (i : Instr) (s : State), ∃ t, exec i s = .next t

/-- R38, R281: ERR is written only by a rejection, which changes nothing else, and by CLR_ERR; an accepted command leaves it,
whether it is pending or performed. -/
def Obligations.ErrWrittenOnlyByRejectionAndClrErr : Prop :=
  ∀ (i : Instr) (s t : State), exec i s = .next t →
    t.err = s.err ∨ (i = .clrErr ∧ t = { s with err := 0 }) ∨
    (t = { s with err := t.err } ∧ (t.err = 1 ∨ t.err = 3 ∨ t.err = 4))

/-- R264: CLR_ERR sets ERR to 0 and changes nothing else, also while BUSY = 1; with a reserved bit set it sets ERR to 3
instead. -/
def Obligations.ClrErrClearsErr : Prop :=
  ∀ s : State,
    exec .clrErr s = .next { s with err := 0 } ∧
    issueCommand 0x00000030 s = .next { s with err := 0 } ∧
    (∀ v : Word, v.toNat % 256 = 0x30 → v.toNat / 256 ≠ 0 → issueCommand v s = .next { s with err := 3 })

/-! ## What each command does when it is admitted and performed

The hypotheses are BUSY = 0, the command's sequence condition, and LAT = 0 for this acceptance (`latencies = 0 :: l`);
AcceptedCommandBecomesPending and CompletionDoesNotDependOnLatency carry each of them to every other latency. A right side of the
form `{ s with … }` says also that every other field is unchanged. -/

/-- R263: NOP changes nothing. -/
def Obligations.NopChangesNothing : Prop :=
  ∀ (s : State) (l : List Nat), s.busy = false → s.latencies = 0 :: l →
    exec .nop s = .next { s with latencies := l }

/-- R136, R131, R124: SHA_INIT resets the context to the initial constants, zeroes the counters and BUF, and clears HMAC_INNER. -/
def Obligations.ShaInitResetsContext : Prop :=
  ∀ (s : State) (l : List Nat), s.busy = false → s.latencies = 0 :: l →
    exec .shaInit s = .next { s with
      latencies := l
      h := #v[0x6a09e667, 0xbb67ae85, 0x3c6ef372, 0xa54ff53a, 0x510e527f, 0x9b05688c, 0x1f83d9ab, 0x5be0cd19]
      bufcnt := 0
      bitlen := 0
      buf := Vector.replicate 64 0
      shaState := .active
      hmacInner := false }

/-- R137, R132: SHA_UPDATE LEN. With p the buffered bytes followed by the first LEN bytes of DIN: if p is shorter than a block, H
stays and p is buffered; else the first 64 bytes of p are compressed into H and the rest is buffered. BUFCNT becomes (BUFCNT +
LEN) mod 64, BITLEN grows by 8 * LEN modulo 2^64, and nothing else changes; LEN = 0 changes nothing. -/
def Obligations.ShaUpdateAbsorbsDin : Prop :=
  ∀ (s : State) (len : BitVec 7) (l : List Nat),
    s.busy = false → len.toNat ≤ 64 → s.shaState = .active → s.latencies = 0 :: l →
    let p := s.buf.toList.take s.bufcnt.toNat ++ (bytesOf s.din.toList).take len.toNat
    ∃ t, exec (.shaUpdate len) s = .next t ∧
      t = { s with latencies := l, h := t.h, buf := t.buf, bufcnt := t.bufcnt, bitlen := t.bitlen } ∧
      t.bufcnt.toNat = (s.bufcnt.toNat + len.toNat) % 64 ∧
      t.bitlen.toNat = (s.bitlen.toNat + 8 * len.toNat) % 2 ^ 64 ∧
      (p.length < 64 → t.h = s.h ∧ t.buf.toList.take t.bufcnt.toNat = p) ∧
      (64 ≤ p.length → t.h = compress s.h (blockOf p) ∧ t.buf.toList.take t.bufcnt.toNat = p.drop 64) ∧
      (len = 0 → t = { s with latencies := l })

/-- R138, R133, R134: SHA_FINAL compresses the buffered bytes with their padding, one block for up to 55 bytes and two from 56,
publishes H in DIGEST, and leaves BUFCNT = 0, FINAL, and everything else. -/
def Obligations.ShaFinalPublishesDigest : Prop :=
  ∀ (s : State) (l : List Nat),
    s.busy = false → s.shaState = .active → s.hmacInner = false → s.latencies = 0 :: l →
    let n := s.bufcnt.toNat
    let p := s.buf.toList.take n ++ [0x80] ++ List.replicate (if n ≤ 55 then 55 - n else 119 - n) 0 ++ beBytes64 s.bitlen
    let hash := if n ≤ 55 then compress s.h (blockOf p) else compress (compress s.h (blockOf p)) (blockOf (p.drop 64))
    exec .shaFinal s = .next { s with latencies := l, h := hash, digest := hash, bufcnt := 0, shaState := .final }

/-- R184, R180, R64: HMAC_KEY LEN writes byte j of DIN to K0[j] for j < LEN and zero to the rest of K0, and changes nothing else,
in any SHA_STATE. -/
def Obligations.HmacKeyLoadsPaddedKey : Prop :=
  ∀ (s : State) (len : BitVec 7) (l : List Nat),
    s.busy = false → len.toNat ≤ 64 → s.hmacInner = false → s.latencies = 0 :: l →
    ∃ t, exec (.hmacKey len) s = .next t ∧ t = { s with latencies := l, k0 := t.k0 } ∧
      ∀ j : Fin 64, t.k0[j] =
        if j.val < len.toNat then wordByte (s.din[j.val / 4]'(by omega)) (j.val % 4) else 0

/-- R185, R64, R141: HMAC_KEY_DIGEST writes the 32 bytes of DIGEST and 32 zero bytes to K0, and changes nothing else. -/
def Obligations.HmacKeyDigestLoadsDigest : Prop :=
  ∀ (s : State) (l : List Nat), s.busy = false → s.shaState = .final → s.latencies = 0 :: l →
    ∃ t, exec .hmacKeyDigest s = .next t ∧ t = { s with latencies := l, k0 := t.k0 } ∧
      ∀ j : Fin 64, t.k0[j] =
        if h : j.val < 32 then wordByte (s.digest[j.val / 4]'(by omega)) (j.val % 4) else 0

/-- R186, R182: HMAC_START re-initialises the context and compresses the one block K0 xor 0x36: BUFCNT = 0, BITLEN = 512, ACTIVE,
HMAC_INNER = 1; only the context changes. -/
def Obligations.HmacStartAbsorbsInnerPad : Prop :=
  ∀ (s : State) (l : List Nat), s.busy = false → s.latencies = 0 :: l →
    ∃ t, exec .hmacStart s = .next t ∧
      t = { s with latencies := l, h := compress iv (s.k0.map fun b => b ^^^ 0x36), buf := t.buf, bufcnt := 0, bitlen := 512,
                   shaState := .active, hmacInner := true }

/-- R187, R182, R133: HMAC_FINISH closes the inner pass as SHA_FINAL closes a hash, and publishes the SHA-256 of the block K0 xor
0x5c followed by the 32 inner digest bytes; BITLEN = 768, FINAL, HMAC_INNER = 0, K0 zero; the inner digest is never published. -/
def Obligations.HmacFinishPublishesTag : Prop :=
  ∀ (s : State) (l : List Nat), s.busy = false → s.hmacInner = true → s.latencies = 0 :: l →
    let n := s.bufcnt.toNat
    let p := s.buf.toList.take n ++ [0x80] ++ List.replicate (if n ≤ 55 then 55 - n else 119 - n) 0 ++ beBytes64 s.bitlen
    let inner := if n ≤ 55 then compress s.h (blockOf p) else compress (compress s.h (blockOf p)) (blockOf (p.drop 64))
    let tag := sha256 ((s.k0.map fun b => b ^^^ 0x5c).toList ++ bytesOf inner.toList)
    ∃ t, exec .hmacFinish s = .next t ∧
      t = { s with latencies := l, h := tag, digest := tag, buf := t.buf, bufcnt := 0, bitlen := 768,
                   shaState := .final, hmacInner := false, k0 := Vector.replicate 64 0 }

/-- R230, R219, R214: AES_KEYEXP writes RK by the key-expansion recurrence from DIN[0..3], and changes nothing else. -/
def Obligations.AesKeyexpExpandsKey : Prop :=
  ∀ (s : State) (l : List Nat), s.busy = false → s.latencies = 0 :: l →
    ∃ t, exec .aesKeyexp s = .next t ∧ t = { s with latencies := l, rk := t.rk } ∧
      (∀ i : Fin 4, t.rk[i.val] = s.din[i.val]) ∧
      (∀ i : Fin 40, t.rk[i.val + 4] = t.rk[i.val] ^^^
        (if (i.val + 4) % 4 = 0 then
          subWord (rotWord t.rk[i.val + 3]) ^^^
            (([0x01, 0x02, 0x04, 0x08, 0x10, 0x20, 0x40, 0x80, 0x1b, 0x36].getD (i.val / 4) 0 : Word) <<< 24)
        else t.rk[i.val + 3]))

/-- R231, R224, R225, R228: AES_ENC runs the ten rounds in the order of R225 on DIN[0..3] under RK as it stands, writes AESOUT,
and changes nothing else. -/
def Obligations.AesEncEncryptsBlock : Prop :=
  ∀ (s : State) (l : List Nat), s.busy = false → s.latencies = 0 :: l →
    let full (r : Fin 11) (x : AesBlock) := addRoundKey s.rk r (mixColumns (shiftRows (subBytes x)))
    let start := addRoundKey s.rk 0 (loadBlock #v[s.din[0], s.din[1], s.din[2], s.din[3]])
    let nine := full 9 (full 8 (full 7 (full 6 (full 5 (full 4 (full 3 (full 2 (full 1 start))))))))
    exec .aesEnc s = .next { s with
      latencies := l, aesout := unloadBlock (addRoundKey s.rk 10 (shiftRows (subBytes nine))) }

/-- R232, R229: AES_DEC runs the inverse rounds in the order of R229 on DIN[0..3] under RK as it stands, writes AESOUT, and
changes nothing else. -/
def Obligations.AesDecDecryptsBlock : Prop :=
  ∀ (s : State) (l : List Nat), s.busy = false → s.latencies = 0 :: l →
    let inv (r : Fin 11) (x : AesBlock) := invMixColumns (addRoundKey s.rk r (invSubBytes (invShiftRows x)))
    let start := addRoundKey s.rk 10 (loadBlock #v[s.din[0], s.din[1], s.din[2], s.din[3]])
    let nine := inv 1 (inv 2 (inv 3 (inv 4 (inv 5 (inv 6 (inv 7 (inv 8 (inv 9 start))))))))
    exec .aesDec s = .next { s with
      latencies := l, aesout := unloadBlock (addRoundKey s.rk 0 (invSubBytes (invShiftRows nine))) }

/-! ## The algorithms -/

/-- R120 to R123: what each logical function of SHA-256 does to each bit i of its arguments: a rotation moves bit (i + n) mod 32
to bit i, a shift brings in zeros, Ch selects by x, Maj takes the majority. -/
def Obligations.LogicalFunctionsBitByBit : Prop :=
  ∀ (x y z : Word) (i : Fin 32),
    let bit (w : Word) (k : Nat) := w.getLsbD k
    (∀ n, 0 < n → n < 32 → bit (shr n x) i.val = (decide (i.val + n < 32) && bit x (i.val + n))) ∧
    (∀ n, 0 < n → n < 32 → bit (rotr n x) i.val = bit x ((i.val + n) % 32)) ∧
    bit (ch x y z) i.val = (if bit x i.val then bit y i.val else bit z i.val) ∧
    bit (maj x y z) i.val = ((bit x i.val && bit y i.val) || (bit x i.val && bit z i.val) || (bit y i.val && bit z i.val)) ∧
    bit (bigSigma0 x) i.val = (bit x ((i.val + 2) % 32) ^^ bit x ((i.val + 13) % 32) ^^ bit x ((i.val + 22) % 32)) ∧
    bit (bigSigma1 x) i.val = (bit x ((i.val + 6) % 32) ^^ bit x ((i.val + 11) % 32) ^^ bit x ((i.val + 25) % 32)) ∧
    bit (smallSigma0 x) i.val =
      (bit x ((i.val + 7) % 32) ^^ bit x ((i.val + 18) % 32) ^^ (decide (i.val + 3 < 32) && bit x (i.val + 3))) ∧
    bit (smallSigma1 x) i.val =
      (bit x ((i.val + 17) % 32) ^^ bit x ((i.val + 19) % 32) ^^ (decide (i.val + 10 < 32) && bit x (i.val + 10)))

/-- R126, R127: the message schedule has 64 words, the first sixteen are the block's big-endian words, and every later one is
given by the recurrence. -/
def Obligations.MessageScheduleRecurrence : Prop :=
  ∀ b : Vector Byte 64,
    let w := schedule b
    w.length = 64 ∧
    (∀ t : Fin 16, w.getD t.val 0 = be32 b[4 * t.val] b[4 * t.val + 1] b[4 * t.val + 2] b[4 * t.val + 3]) ∧
    (∀ t, 16 ≤ t → t < 64 → w.getD t 0 =
      smallSigma1 (w.getD (t - 2) 0) + w.getD (t - 7) 0 + smallSigma0 (w.getD (t - 15) 0) + w.getD (t - 16) 0)

/-- R128, R129: Compress starts the eight working variables at the chaining value, runs the 64 rounds with K[t] and W[t], each from
the values before the round, and adds the result back word by word. -/
def Obligations.CompressFollowsTheRounds : Prop :=
  ∀ (hin : Vector Word 8) (b : Vector Byte 64), ∃ v : Nat → Working,
    v 0 = { a := hin[0], b := hin[1], c := hin[2], d := hin[3], e := hin[4], f := hin[5], g := hin[6], h := hin[7] } ∧
    (∀ t, t < 64 →
      let x := v t
      let t1 := x.h + bigSigma1 x.e + ch x.e x.f x.g + roundConstants.getD t 0 + (schedule b).getD t 0
      let t2 := bigSigma0 x.a + maj x.a x.b x.c
      v (t + 1) = { a := t1 + t2, b := x.a, c := x.b, d := x.c, e := x.d + t1, f := x.e, g := x.f, h := x.g }) ∧
    ∀ i : Fin 8, (compress hin b)[i] =
      hin[i] + [(v 64).a, (v 64).b, (v 64).c, (v 64).d, (v 64).e, (v 64).f, (v 64).g, (v 64).h].getD i.val 0

/-- R129's worked example (V-SHA-3): compressing the padded block of "abc" from IV. -/
def Obligations.CompressWorkedExample : Prop :=
  compress iv (blockOf ([0x61, 0x62, 0x63, 0x80] ++ List.replicate 59 0 ++ [0x18])) =
    #v[0xba7816bf, 0x8f01cfea, 0x414140de, 0x5dae2223, 0xb00361a3, 0x96177a9c, 0xb410ff61, 0xf20015ad]

/-- R140: for every message and every two splits of it into chunks of at most 64 bytes, in any state, SHA_INIT, one LOADB and
SHA_UPDATE per chunk, and SHA_FINAL leave the same DIGEST (the completion steps, in that order). -/
def Obligations.StreamingEquivalence : Prop :=
  ∀ (s : State) (cs ds : List (List Byte)), (∀ c ∈ cs, c.length ≤ 64) → (∀ d ∈ ds, d.length ≤ 64) → cs.flatten = ds.flatten →
    let update (s : State) (c : List Byte) := performShaUpdate (BitVec.ofNat 7 c.length) (s.loadBytes c)
    (performShaFinal (cs.foldl update (performShaInit s))).digest = (performShaFinal (ds.foldl update (performShaInit s))).digest

/-- R139. First the completion steps: SHA_INIT, one LOADB and SHA_UPDATE per chunk, and SHA_FINAL leave in DIGEST the SHA-256 of
the whole message, for every message of fewer than 2^61 bytes: padded once as a whole and compressed block by block from IV. Then
the program itself: from every idle state out of reset, whatever the latency of each command, its accesses and POLLs all end (log 2,
log 8), no command of it is rejected, DIGEST is that hash, and its last eight reads, newest first, are DIGEST[7] .. DIGEST[0]. -/
def Obligations.StreamedHashIsOneShotHash : Prop :=
  (∀ (s : State) (cs : List (List Byte)), (∀ c ∈ cs, c.length ≤ 64) → cs.flatten.length < 2 ^ 61 →
    let update (s : State) (c : List Byte) := performShaUpdate (BitVec.ofNat 7 c.length) (s.loadBytes c)
    (performShaFinal (cs.foldl update (performShaInit s))).digest = sha256 cs.flatten) ∧
  (∀ (s : State) (cs : List (List Byte)), s.busy = false → s.inReset = false → s.inputs = [] →
    (∀ c ∈ cs, c.length ≤ 64) → cs.flatten.length < 2 ^ 61 →
    ∃ n t, core.run n (s.withProgram (sha256Program cs)) = .next t ∧
      t.digest = sha256 cs.flatten ∧ t.reads.take 8 = t.digest.toList.reverse ∧
      t.inputs = [] ∧ t.busy = false ∧ t.shaState = .final ∧ t.hmacInner = false ∧ t.err = s.err ∧
      t.k0 = s.k0 ∧ t.rk = s.rk ∧ t.aesout = s.aesout)

/-- R188, R183. First the completion steps: the HMAC command sequence leaves in DIGEST HMAC(key, msg) =
SHA256(opad || SHA256(ipad || msg)), with a key of at most 64 bytes loaded by HMAC_KEY and a longer one hashed and loaded by
HMAC_KEY_DIGEST, for every chunking of key and message. Then the program itself, as for R139: from every idle state out of reset, and
with no inner pass open where the key goes through HMAC_KEY (R184 rejects that command in one). -/
def Obligations.HmacSequenceIsHmac : Prop :=
  (∀ (s : State) (key : List Byte) (ks ms : List (List Byte)),
    (∀ c ∈ ks, c.length ≤ 64) → (∀ c ∈ ms, c.length ≤ 64) → ks.flatten = key →
    key.length < 2 ^ 61 → ms.flatten.length < 2 ^ 61 - 64 →
    let update (s : State) (c : List Byte) := performShaUpdate (BitVec.ofNat 7 c.length) (s.loadBytes c)
    let keyed :=
      if key.length ≤ 64 then performHmacKey (BitVec.ofNat 7 key.length) (s.loadBytes key)
      else performHmacKeyDigest (performShaFinal (ks.foldl update (performShaInit s)))
    (performHmacFinish (ms.foldl update (performHmacStart keyed))).digest = hmacSha256 key ms.flatten) ∧
  (∀ (s : State) (ks ms : List (List Byte)), s.busy = false → s.inReset = false → s.inputs = [] →
    (s.hmacInner = false ∨ 64 < ks.flatten.length) →
    (∀ c ∈ ks, c.length ≤ 64) → (∀ c ∈ ms, c.length ≤ 64) →
    ks.flatten.length < 2 ^ 61 → ms.flatten.length < 2 ^ 61 - 64 →
    ∃ n t, core.run n (s.withProgram (hmacProgram ks ms)) = .next t ∧
      t.digest = hmacSha256 ks.flatten ms.flatten ∧ t.reads.take 8 = t.digest.toList.reverse ∧
      t.inputs = [] ∧ t.busy = false ∧ t.shaState = .final ∧ t.hmacInner = false ∧ t.err = s.err ∧
      t.k0 = Vector.replicate 64 0 ∧ t.rk = s.rk ∧ t.aesout = s.aesout)

/-- R212 with R211: each byte has an inverse in GF(2^8), with 0 for 0, and the S-box is the affine map applied to it. -/
def Obligations.SboxIsAffineOfInverse : Prop :=
  ∀ x : Byte, ∃ b : Byte, (if x = 0 then b = 0 else gmul x b = 1) ∧
    ∀ i : Fin 8, (sbox x).getLsbD i.val =
      (b.getLsbD i.val ^^ b.getLsbD ((i.val + 4) % 8) ^^ b.getLsbD ((i.val + 5) % 8) ^^ b.getLsbD ((i.val + 6) % 8) ^^
        b.getLsbD ((i.val + 7) % 8) ^^ (0x63 : Byte).getLsbD i.val)

/-- R213: the inverse S-box undoes the S-box, on every byte, and the S-box undoes it. -/
def Obligations.InverseSboxInvertsSbox : Prop :=
  ∀ x : Byte, invSbox (sbox x) = x ∧ sbox (invSbox x) = x

/-- R211, R214: multiplication by each constant of R218 and R223 commutes; one, two and three are as R211 says; each round
constant is xtime of the one before it, from 0x01. -/
def Obligations.FieldMultiplicationAndRoundConstants : Prop :=
  (∀ b : Byte, ∀ c ∈ ([0x02, 0x03, 0x09, 0x0b, 0x0d, 0x0e] : List Byte), gmul b c = gmul c b) ∧
  (∀ b : Byte, gmul b 1 = b ∧ gmul b 2 = xtime b ∧ gmul b 3 = xtime b ^^^ b) ∧
  rcon 1 = 0x01 ∧ ∀ j : Fin 9, rcon (j.val + 2) = xtime (rcon (j.val + 1))

/-- R210, R216 to R218, R220 to R223: what loading, unloading and each transformation of the AES state does to the byte in row r and
column c; the matrices of R218 and R223 are the circulants of their first rows. -/
def Obligations.AesTransformationsByteByByte : Prop :=
  ∀ (s : AesBlock) (w : Vector Word 4) (rk : Vector Word 44) (k : Fin 11) (r c : Fin 4),
    let byte (x : AesBlock) (row col : Nat) : Byte :=
      let column := [x.c0, x.c1, x.c2, x.c3].getD col x.c0
      [column.r0, column.r1, column.r2, column.r3].getD row 0
    let rowTimesColumn (first : List Byte) : Byte :=
      gmul (first.getD ((4 - r.val) % 4) 0) (byte s 0 c.val) ^^^ gmul (first.getD ((5 - r.val) % 4) 0) (byte s 1 c.val) ^^^
        gmul (first.getD ((6 - r.val) % 4) 0) (byte s 2 c.val) ^^^ gmul (first.getD ((7 - r.val) % 4) 0) (byte s 3 c.val)
    byte (loadBlock w) r.val c.val = BitVec.ofNat 8 (w[c].toNat / 2 ^ (24 - 8 * r.val)) ∧
    (unloadBlock s)[c] = be32 (byte s 0 c.val) (byte s 1 c.val) (byte s 2 c.val) (byte s 3 c.val) ∧
    byte (subBytes s) r.val c.val = sbox (byte s r.val c.val) ∧
    byte (shiftRows s) r.val c.val = byte s r.val ((c.val + r.val) % 4) ∧
    byte (mixColumns s) r.val c.val = rowTimesColumn [0x02, 0x03, 0x01, 0x01] ∧
    byte (addRoundKey rk k s) r.val c.val =
      byte s r.val c.val ^^^ BitVec.ofNat 8 ((rk[4 * k.val + c.val]'(by omega)).toNat / 2 ^ (24 - 8 * r.val)) ∧
    byte (invSubBytes s) r.val c.val = invSbox (byte s r.val c.val) ∧
    byte (invShiftRows s) r.val c.val = byte s r.val ((c.val + 4 - r.val) % 4) ∧
    byte (invMixColumns s) r.val c.val = rowTimesColumn [0x0e, 0x0b, 0x0d, 0x09]

/-- R223 with R218: InvMixColumns undoes MixColumns on every column, and MixColumns undoes it. -/
def Obligations.InvMixColumnsInvertsMixColumns : Prop :=
  ∀ k : AesColumn, invMixColumn (mixColumn k) = k ∧ mixColumn (invMixColumn k) = k

/-- R226: under any 44 round-key words, decryption undoes encryption and encryption undoes decryption, on every block. -/
def Obligations.DecryptionInvertsEncryption : Prop :=
  ∀ (rk : Vector Word 44) (p : AesBlock), invCipher (cipher p rk) rk = p ∧ cipher (invCipher p rk) rk = p

/-- R226 on the machine: in any idle state with LAT = 0, AES_ENC, its result written back to DIN, and AES_DEC leave the first block
of DIN in AESOUT, whatever RK holds. -/
def Obligations.AesDecReturnsThePlaintext : Prop :=
  ∀ (s : State) (l : List Nat), s.busy = false → s.latencies = 0 :: 0 :: l →
    ∃ t u, exec .aesEnc s = .next t ∧
      exec .aesDec { t with din := (((t.din.set 0 t.aesout[0]).set 1 t.aesout[1]).set 2 t.aesout[2]).set 3 t.aesout[3] } = .next u ∧
      u.aesout = #v[s.din[0], s.din[1], s.din[2], s.din[3]]

/-- R64, R10: byte j of DIN, of DIGEST, of AESOUT and of RK is bits 31-8(j mod 4) : 24-8(j mod 4) of word j / 4, and BE32 of a
word's four bytes is the word. -/
def Obligations.BytePackingOfWindows : Prop :=
  ∀ (s : State) (w : Word),
    (∀ j : Fin 64, (bytesOf s.din.toList).getD j.val 0 =
      BitVec.ofNat 8 ((s.din[j.val / 4]'(by omega)).toNat / 2 ^ (24 - 8 * (j.val % 4)))) ∧
    (∀ j : Fin 32, (bytesOf s.digest.toList).getD j.val 0 =
      BitVec.ofNat 8 ((s.digest[j.val / 4]'(by omega)).toNat / 2 ^ (24 - 8 * (j.val % 4)))) ∧
    (∀ j : Fin 16, (bytesOf s.aesout.toList).getD j.val 0 =
      BitVec.ofNat 8 ((s.aesout[j.val / 4]'(by omega)).toNat / 2 ^ (24 - 8 * (j.val % 4)))) ∧
    (∀ j : Fin 176, (bytesOf s.rk.toList).getD j.val 0 =
      BitVec.ofNat 8 ((s.rk[j.val / 4]'(by omega)).toNat / 2 ^ (24 - 8 * (j.val % 4)))) ∧
    be32 (wordByte w 0) (wordByte w 1) (wordByte w 2) (wordByte w 3) = w

/-! ## Frames over the whole machine -/

/-- R227: the AES commands leave H, BUF, BUFCNT, BITLEN, SHA_STATE, HMAC_INNER, K0 and DIGEST, and what they leave in RK and
AESOUT depends on DIN, RK and AESOUT alone; the SHA and HMAC commands leave RK and AESOUT. -/
def Obligations.AesAndHashAreIndependent : Prop :=
  (∀ (i : Instr) (s : State), i = .aesKeyexp ∨ i = .aesEnc ∨ i = .aesDec →
    perform i s = { s with rk := (perform i s).rk, aesout := (perform i s).aesout }) ∧
  (∀ (i : Instr) (s t : State), i = .aesKeyexp ∨ i = .aesEnc ∨ i = .aesDec → s.din = t.din → s.rk = t.rk → s.aesout = t.aesout →
    (perform i s).rk = (perform i t).rk ∧ (perform i s).aesout = (perform i t).aesout) ∧
  (∀ (i : Instr) (s : State), i ≠ .aesKeyexp → i ≠ .aesEnc → i ≠ .aesDec →
    (perform i s).rk = s.rk ∧ (perform i s).aesout = s.aesout)

/-- R26, R265: only host writes change DIN. No command changes it; no step changes it whose input is neither an aligned 32-bit write
to DIN nor a reset input, busy or not; and while BUSY = 1 a write to DIN does not change it either. -/
def Obligations.DinChangesOnlyByHostWrites : Prop :=
  (∀ (i : Instr) (s t : State), exec i s = .next t → t.din = s.din) ∧
  (∀ s t : State,
    (∀ off v rest, s.inputs = .write off .w32 v :: rest → ¬ (0x040 ≤ off ∧ off ≤ 0x07C)) →
    (∀ rest, s.inputs ≠ .assertReset :: rest ∧ s.inputs ≠ .releaseReset :: rest) →
    step s = .next t → t.din = s.din) ∧
  (∀ s t : State, s.busy = true → (∀ rest, s.inputs ≠ .assertReset :: rest ∧ s.inputs ≠ .releaseReset :: rest) →
    step s = .next t → t.din = s.din)

/-- R27: a step changes DIGEST only where SHA_FINAL or HMAC_FINISH is pending, or is the command word the host writes, or the
reset input acts. -/
def Obligations.DigestChangesOnlyByFinalAndFinish : Prop :=
  ∀ s t : State, s.pend ≠ some .shaFinal → s.pend ≠ some .hmacFinish →
    (∀ rest, s.inputs ≠ .write 0x004 .w32 0x00000003 :: rest ∧ s.inputs ≠ .write 0x004 .w32 0x00000013 :: rest ∧
      s.inputs ≠ .assertReset :: rest ∧ s.inputs ≠ .releaseReset :: rest) →
    step s = .next t → t.digest = s.digest

/-- R187, R189: while the inner pass stays open, no step changes K0: the outer hash uses the K0 of the inner one. -/
def Obligations.KeyBlockFixedDuringInnerPass : Prop :=
  ∀ s t : State, s.Inv → s.hmacInner = true → step s = .next t → t.hmacInner = true → t.k0 = s.k0

/-- R42: at reset every invariant holds. -/
def Obligations.ResetMeetsInvariants : Prop := State.reset.Inv

/-- R42: every step of the machine keeps the invariants, whatever the outside does. -/
def Obligations.StepKeepsInvariants : Prop :=
  ∀ s t : State, s.Inv → step s = .next t → t.Inv

/-- R280, R288, R262: from a state that meets the invariants, out of reset and with only aligned 32-bit accesses in the window
still to come, every step answers a next state, which is such a state again: no run from it ever stops. -/
def Obligations.SafeStatesNeverStop : Prop :=
  ∀ s : State, Safe s → ∃ t, step s = .next t ∧ Safe t

/-! ## The host's accesses and reset -/

/-- R260 with R61, R66: what an aligned 32-bit read at every offset of the window returns while BUSY = 0, with STATUS as its fields'
places say; the read changes nothing but the record of reads (and the count of draws). -/
def Obligations.IdleReadsFollowTheMap : Prop :=
  ∀ (s : State) (off : Nat), s.busy = false → s.inReset = false → off < 0x200 → off % 4 = 0 →
    let sha := match s.shaState with | .uninit => 0 | .active => 1 | .final => 2
    let w : Word :=
      if off = 0x000 then 0x436F3137
      else if off = 0x004 then 0
      else if off = 0x008 then
        BitVec.ofNat 32 (2 * sha + 8 * s.hmacInner.toNat + 2 ^ 8 * s.bufcnt.toNat + 2 ^ 16 * s.err.toNat)
      else if off = 0x00C then BitVec.ofNat 32 (s.bitlen.toNat % 2 ^ 32)
      else if off = 0x010 then BitVec.ofNat 32 (s.bitlen.toNat / 2 ^ 32)
      else if 0x040 ≤ off ∧ off ≤ 0x07C then s.din.toList.getD ((off - 0x040) / 4) 0
      else if 0x080 ≤ off ∧ off ≤ 0x09C then s.digest.toList.getD ((off - 0x080) / 4) 0
      else if 0x0A0 ≤ off ∧ off ≤ 0x0AC then s.aesout.toList.getD ((off - 0x0A0) / 4) 0
      else if 0x100 ≤ off ∧ off ≤ 0x1AC then s.rk.toList.getD ((off - 0x100) / 4) 0
      else 0
    hostRead off .w32 s = .next { s with reads := w :: s.reads, fresh := s.fresh + 1 }

/-- R260, R266 with R24: the same reads while BUSY = 1. ID, CMD, DIN, the reserved offsets, and of STATUS the fields BUSY and ERR and
the reserved bits are exact; every other register and field is the draw of that read (`reads` and `fresh` are the model's own: log 9,
log 3). -/
def Obligations.BusyReadsDraw : Prop :=
  ∀ (s : State) (off : Nat), s.busy = true → s.inReset = false → off < 0x200 → off % 4 = 0 →
    ∃ w : Word, hostRead off .w32 s = .next { s with reads := w :: s.reads, fresh := s.fresh + 1 } ∧
      if off = 0x000 then w = 0x436F3137
      else if off = 0x004 then w = 0
      else if off = 0x008 then
        w.toNat % 2 = 1 ∧ w.toNat / 2 ^ 16 % 2 ^ 4 = s.err.toNat ∧ w &&& 0xFFF0C0F0 = 0 ∧
          w &&& 0x00003F0E = Config.draw s.fresh &&& 0x00003F0E
      else if 0x040 ≤ off ∧ off ≤ 0x07C then w = s.din.toList.getD ((off - 0x040) / 4) 0
      else if off = 0x00C ∨ off = 0x010 ∨ (0x080 ≤ off ∧ off ≤ 0x0AC) ∨ (0x100 ≤ off ∧ off ≤ 0x1AC) then
        w = Config.draw s.fresh
      else w = 0

/-- R261: what an aligned 32-bit write at every offset of the window does, busy or not: CMD issues the word, DIN[i] and RK[i] take
it when BUSY = 0 and else ERR becomes ERR_BUSY = 1, and every other offset has no effect. -/
def Obligations.WritesFollowTheMap : Prop :=
  ∀ (s : State) (v : Word), s.inReset = false →
    hostWrite 0x004 .w32 v s = issueCommand v s ∧
    (∀ i : Fin 16, hostWrite (0x040 + 4 * i.val) .w32 v s =
      .next (if s.busy then { s with err := 1 } else { s with din := s.din.set i v })) ∧
    (∀ i : Fin 44, hostWrite (0x100 + 4 * i.val) .w32 v s =
      .next (if s.busy then { s with err := 1 } else { s with rk := s.rk.set i v })) ∧
    (∀ off, off < 0x200 → off % 4 = 0 → off ≠ 0x004 → ¬ (0x040 ≤ off ∧ off ≤ 0x07C) → ¬ (0x100 ≤ off ∧ off ≤ 0x1AC) →
      hostWrite off .w32 v s = .next s)

/-- R265: a write to DIN[i] or RK[i] while BUSY = 1 is dropped and sets ERR to ERR_BUSY = 1; nothing else changes. -/
def Obligations.BusyWritesAreDropped : Prop :=
  ∀ (s : State) (v : Word), s.busy = true → s.inReset = false →
    (∀ i : Fin 16, hostWrite (0x040 + 4 * i.val) .w32 v s = .next { s with err := 1 }) ∧
    (∀ i : Fin 44, hostWrite (0x100 + 4 * i.val) .w32 v s = .next { s with err := 1 })

/-- R66: a reserved offset reads 0x00000000 and ignores writes, busy or not, with no error (`reads` and `fresh` record the read, the
model's own: log 9, log 3). -/
def Obligations.ReservedOffsetsReadZero : Prop :=
  ∀ (s : State) (v : Word) (off : Nat), s.inReset = false → off % 4 = 0 →
    (0x014 ≤ off ∧ off ≤ 0x03C) ∨ (0x0B0 ≤ off ∧ off ≤ 0x0FC) ∨ (0x1B0 ≤ off ∧ off ≤ 0x1FC) →
    hostRead off .w32 s = .next { s with reads := 0 :: s.reads, fresh := s.fresh + 1 } ∧ hostWrite off .w32 v s = .next s

/-- R62, R63, R288: a read or write of another width than 32 bits, or of 32 bits at an offset that is not a multiple of four, is a
bus fault of its kind at its offset (that a sub-word access counts as such also where it is misaligned is the model's choice,
log 5). -/
def Obligations.MalformedAccessesAreBusFaults : Prop :=
  ∀ (s : State) (off : Nat) (width : Width) (v : Word), s.inReset = false → off < 0x200 →
    (width ≠ .w32 → hostRead off width s = .fault (.busFault .subWordAccess off) ∧
      hostWrite off width v s = .fault (.busFault .subWordAccess off)) ∧
    (width = .w32 → off % 4 ≠ 0 → hostRead off width s = .fault (.busFault .misaligned off) ∧
      hostWrite off width v s = .fault (.busFault .misaligned off))

/-- R60, R61: the window is BASE .. BASE + 0x1FF, wherever BASE is; the model refuses an access outside it (log 4). -/
def Obligations.WindowIsRelativeToBase : Prop :=
  (∀ off, off < 0x200 → windowOffset (Config.base + off) = some off) ∧
  (∀ addr, windowOffset addr = none ↔ addr < Config.base ∨ Config.base + 0x1FF < addr) ∧
  (∀ (s : State) (off : Nat) (width : Width) (v : Word), 0x200 ≤ off →
    hostRead off width s = .refused (.outsideWindow off) ∧ hostWrite off width v s = .refused (.outsideWindow off))

/-- R98, R64: the accesses of LOADB, taken by an idle block, leave the packed bytes in DIN[0 .. ceil(n/4)-1], zero in the bytes of
the last word beyond n, and every other word of DIN and everything else as it was. -/
def Obligations.LoadbPacksBytesIntoDin : Prop :=
  ∀ (s : State) (bs : List Byte) (rest : List HostInput),
    s.busy = false → s.inReset = false → s.wait = 0 → bs.length ≤ 64 → s.inputs = (HostOp.loadb bs).expand ++ rest →
    ∃ t, core.run ((bs.length + 3) / 4) s = .next t ∧ t = { s with din := t.din, inputs := rest } ∧
      (∀ k : Fin 16, (bs.length + 3) / 4 ≤ k.val → t.din[k] = s.din[k]) ∧
      (∀ j, j < 4 * ((bs.length + 3) / 4) → (bytesOf t.din.toList).getD j 0 = bs.getD j 0)

/-- R41: the state after reset, element by element, and what STATUS reads in it. -/
def Obligations.ResetValues : Prop :=
  let s := State.reset
  (∀ i : Fin 16, s.din[i] = 0) ∧ (∀ i : Fin 8, s.digest[i] = 0) ∧ (∀ i : Fin 4, s.aesout[i] = 0) ∧ (∀ i : Fin 44, s.rk[i] = 0) ∧
  (∀ i : Fin 8, s.h[i] = 0) ∧ (∀ i : Fin 64, s.buf[i] = 0) ∧ s.bufcnt = 0 ∧ s.bitlen = 0 ∧ s.shaState = .uninit ∧
  s.hmacInner = false ∧ (∀ i : Fin 64, s.k0[i] = 0) ∧ s.busy = false ∧ s.pend = none ∧ s.err = 0 ∧
  (∀ d, s.readReg .status d = 0 ∧ s.readReg .id d = 0x436F3137)

/-- R310, R311: asserting reset abandons the pending command, so that no completion step follows; on release every element has its
reset value, and only the outside world (log 6) is as it was. While reset is asserted no access is answered. -/
def Obligations.ResetAbandonsAndRestores : Prop :=
  ∀ (s : State) (rest : List HostInput),
    (¬ (s.busy = true ∧ s.wait = 0) → s.inputs = .assertReset :: rest → ∃ t, step s = .next t ∧
      t.inReset = true ∧ t.busy = false ∧ t.pend = none) ∧
    (s.inReset = true → s.inputs = .releaseReset :: rest →
      step s = .next { State.reset with
        inputs := rest, reads := s.reads, latencies := s.latencies, fresh := s.fresh }) ∧
    (s.inReset = true → s.inputs = [] → step s = .next { s with wait := s.wait - 1 }) ∧
    (∀ (off : Nat) (width : Width) (v : Word), s.inReset = true → off < 0x200 →
      hostRead off width s = .fault .accessDuringReset ∧ hostWrite off width v s = .fault .accessDuringReset)
end

