-- ==== Sys2Proof/Laws/State.lean ====
section
/-! SUPPORT. What each shared operation does to each field of the state, one lemma per field, so that no later proof unfolds a
record update. -/

namespace Sys2Proof.Machine

@[simp] theorem State.reject_din (s : State) (code : ErrCode) : (s.reject code).din = s.din := rfl
@[simp] theorem State.reject_digest (s : State) (code : ErrCode) : (s.reject code).digest = s.digest := rfl
@[simp] theorem State.reject_aesout (s : State) (code : ErrCode) : (s.reject code).aesout = s.aesout := rfl
@[simp] theorem State.reject_rk (s : State) (code : ErrCode) : (s.reject code).rk = s.rk := rfl
@[simp] theorem State.reject_h (s : State) (code : ErrCode) : (s.reject code).h = s.h := rfl
@[simp] theorem State.reject_buf (s : State) (code : ErrCode) : (s.reject code).buf = s.buf := rfl
@[simp] theorem State.reject_bufcnt (s : State) (code : ErrCode) : (s.reject code).bufcnt = s.bufcnt := rfl
@[simp] theorem State.reject_bitlen (s : State) (code : ErrCode) : (s.reject code).bitlen = s.bitlen := rfl
@[simp] theorem State.reject_shaState (s : State) (code : ErrCode) : (s.reject code).shaState = s.shaState := rfl
@[simp] theorem State.reject_hmacInner (s : State) (code : ErrCode) : (s.reject code).hmacInner = s.hmacInner := rfl
@[simp] theorem State.reject_k0 (s : State) (code : ErrCode) : (s.reject code).k0 = s.k0 := rfl
@[simp] theorem State.reject_busy (s : State) (code : ErrCode) : (s.reject code).busy = s.busy := rfl
@[simp] theorem State.reject_pend (s : State) (code : ErrCode) : (s.reject code).pend = s.pend := rfl
@[simp] theorem State.reject_err (s : State) (code : ErrCode) : (s.reject code).err = code.bits := rfl
@[simp] theorem State.reject_inReset (s : State) (code : ErrCode) : (s.reject code).inReset = s.inReset := rfl
@[simp] theorem State.reject_inputs (s : State) (code : ErrCode) : (s.reject code).inputs = s.inputs := rfl
@[simp] theorem State.reject_reads (s : State) (code : ErrCode) : (s.reject code).reads = s.reads := rfl
@[simp] theorem State.reject_wait (s : State) (code : ErrCode) : (s.reject code).wait = s.wait := rfl
@[simp] theorem State.reject_latencies (s : State) (code : ErrCode) : (s.reject code).latencies = s.latencies := rfl
@[simp] theorem State.reject_fresh (s : State) (code : ErrCode) : (s.reject code).fresh = s.fresh := rfl

@[simp] theorem State.setPending_din (s : State) (i : Instr) (n : Nat) : (s.setPending i n).din = s.din := rfl
@[simp] theorem State.setPending_digest (s : State) (i : Instr) (n : Nat) : (s.setPending i n).digest = s.digest := rfl
@[simp] theorem State.setPending_aesout (s : State) (i : Instr) (n : Nat) : (s.setPending i n).aesout = s.aesout := rfl
@[simp] theorem State.setPending_rk (s : State) (i : Instr) (n : Nat) : (s.setPending i n).rk = s.rk := rfl
@[simp] theorem State.setPending_h (s : State) (i : Instr) (n : Nat) : (s.setPending i n).h = s.h := rfl
@[simp] theorem State.setPending_buf (s : State) (i : Instr) (n : Nat) : (s.setPending i n).buf = s.buf := rfl
@[simp] theorem State.setPending_bufcnt (s : State) (i : Instr) (n : Nat) : (s.setPending i n).bufcnt = s.bufcnt := rfl
@[simp] theorem State.setPending_bitlen (s : State) (i : Instr) (n : Nat) : (s.setPending i n).bitlen = s.bitlen := rfl
@[simp] theorem State.setPending_shaState (s : State) (i : Instr) (n : Nat) : (s.setPending i n).shaState = s.shaState := rfl
@[simp] theorem State.setPending_hmacInner (s : State) (i : Instr) (n : Nat) : (s.setPending i n).hmacInner = s.hmacInner := rfl
@[simp] theorem State.setPending_k0 (s : State) (i : Instr) (n : Nat) : (s.setPending i n).k0 = s.k0 := rfl
@[simp] theorem State.setPending_busy (s : State) (i : Instr) (n : Nat) : (s.setPending i n).busy = true := rfl
@[simp] theorem State.setPending_pend (s : State) (i : Instr) (n : Nat) : (s.setPending i n).pend = some i := rfl
@[simp] theorem State.setPending_err (s : State) (i : Instr) (n : Nat) : (s.setPending i n).err = s.err := rfl
@[simp] theorem State.setPending_inReset (s : State) (i : Instr) (n : Nat) : (s.setPending i n).inReset = s.inReset := rfl
@[simp] theorem State.setPending_inputs (s : State) (i : Instr) (n : Nat) : (s.setPending i n).inputs = s.inputs := rfl
@[simp] theorem State.setPending_reads (s : State) (i : Instr) (n : Nat) : (s.setPending i n).reads = s.reads := rfl
@[simp] theorem State.setPending_wait (s : State) (i : Instr) (n : Nat) : (s.setPending i n).wait = n := rfl
@[simp] theorem State.setPending_latencies (s : State) (i : Instr) (n : Nat) : (s.setPending i n).latencies = s.latencies := rfl
@[simp] theorem State.setPending_fresh (s : State) (i : Instr) (n : Nat) : (s.setPending i n).fresh = s.fresh := rfl

@[simp] theorem State.clearPending_din (s : State) : (s.clearPending).din = s.din := rfl
@[simp] theorem State.clearPending_digest (s : State) : (s.clearPending).digest = s.digest := rfl
@[simp] theorem State.clearPending_aesout (s : State) : (s.clearPending).aesout = s.aesout := rfl
@[simp] theorem State.clearPending_rk (s : State) : (s.clearPending).rk = s.rk := rfl
@[simp] theorem State.clearPending_h (s : State) : (s.clearPending).h = s.h := rfl
@[simp] theorem State.clearPending_buf (s : State) : (s.clearPending).buf = s.buf := rfl
@[simp] theorem State.clearPending_bufcnt (s : State) : (s.clearPending).bufcnt = s.bufcnt := rfl
@[simp] theorem State.clearPending_bitlen (s : State) : (s.clearPending).bitlen = s.bitlen := rfl
@[simp] theorem State.clearPending_shaState (s : State) : (s.clearPending).shaState = s.shaState := rfl
@[simp] theorem State.clearPending_hmacInner (s : State) : (s.clearPending).hmacInner = s.hmacInner := rfl
@[simp] theorem State.clearPending_k0 (s : State) : (s.clearPending).k0 = s.k0 := rfl
@[simp] theorem State.clearPending_busy (s : State) : (s.clearPending).busy = false := rfl
@[simp] theorem State.clearPending_pend (s : State) : (s.clearPending).pend = none := rfl
@[simp] theorem State.clearPending_err (s : State) : (s.clearPending).err = s.err := rfl
@[simp] theorem State.clearPending_inReset (s : State) : (s.clearPending).inReset = s.inReset := rfl
@[simp] theorem State.clearPending_inputs (s : State) : (s.clearPending).inputs = s.inputs := rfl
@[simp] theorem State.clearPending_reads (s : State) : (s.clearPending).reads = s.reads := rfl
@[simp] theorem State.clearPending_wait (s : State) : (s.clearPending).wait = s.wait := rfl
@[simp] theorem State.clearPending_latencies (s : State) : (s.clearPending).latencies = s.latencies := rfl
@[simp] theorem State.clearPending_fresh (s : State) : (s.clearPending).fresh = s.fresh := rfl

@[simp] theorem State.tick_din (s : State) : (s.tick).din = s.din := rfl
@[simp] theorem State.tick_digest (s : State) : (s.tick).digest = s.digest := rfl
@[simp] theorem State.tick_aesout (s : State) : (s.tick).aesout = s.aesout := rfl
@[simp] theorem State.tick_rk (s : State) : (s.tick).rk = s.rk := rfl
@[simp] theorem State.tick_h (s : State) : (s.tick).h = s.h := rfl
@[simp] theorem State.tick_buf (s : State) : (s.tick).buf = s.buf := rfl
@[simp] theorem State.tick_bufcnt (s : State) : (s.tick).bufcnt = s.bufcnt := rfl
@[simp] theorem State.tick_bitlen (s : State) : (s.tick).bitlen = s.bitlen := rfl
@[simp] theorem State.tick_shaState (s : State) : (s.tick).shaState = s.shaState := rfl
@[simp] theorem State.tick_hmacInner (s : State) : (s.tick).hmacInner = s.hmacInner := rfl
@[simp] theorem State.tick_k0 (s : State) : (s.tick).k0 = s.k0 := rfl
@[simp] theorem State.tick_busy (s : State) : (s.tick).busy = s.busy := rfl
@[simp] theorem State.tick_pend (s : State) : (s.tick).pend = s.pend := rfl
@[simp] theorem State.tick_err (s : State) : (s.tick).err = s.err := rfl
@[simp] theorem State.tick_inReset (s : State) : (s.tick).inReset = s.inReset := rfl
@[simp] theorem State.tick_inputs (s : State) : (s.tick).inputs = s.inputs := rfl
@[simp] theorem State.tick_reads (s : State) : (s.tick).reads = s.reads := rfl
@[simp] theorem State.tick_wait (s : State) : (s.tick).wait = s.wait - 1 := rfl
@[simp] theorem State.tick_latencies (s : State) : (s.tick).latencies = s.latencies := rfl
@[simp] theorem State.tick_fresh (s : State) : (s.tick).fresh = s.fresh := rfl

@[simp] theorem State.record_din (s : State) (w : Word) : (s.record w).din = s.din := rfl
@[simp] theorem State.record_digest (s : State) (w : Word) : (s.record w).digest = s.digest := rfl
@[simp] theorem State.record_aesout (s : State) (w : Word) : (s.record w).aesout = s.aesout := rfl
@[simp] theorem State.record_rk (s : State) (w : Word) : (s.record w).rk = s.rk := rfl
@[simp] theorem State.record_h (s : State) (w : Word) : (s.record w).h = s.h := rfl
@[simp] theorem State.record_buf (s : State) (w : Word) : (s.record w).buf = s.buf := rfl
@[simp] theorem State.record_bufcnt (s : State) (w : Word) : (s.record w).bufcnt = s.bufcnt := rfl
@[simp] theorem State.record_bitlen (s : State) (w : Word) : (s.record w).bitlen = s.bitlen := rfl
@[simp] theorem State.record_shaState (s : State) (w : Word) : (s.record w).shaState = s.shaState := rfl
@[simp] theorem State.record_hmacInner (s : State) (w : Word) : (s.record w).hmacInner = s.hmacInner := rfl
@[simp] theorem State.record_k0 (s : State) (w : Word) : (s.record w).k0 = s.k0 := rfl
@[simp] theorem State.record_busy (s : State) (w : Word) : (s.record w).busy = s.busy := rfl
@[simp] theorem State.record_pend (s : State) (w : Word) : (s.record w).pend = s.pend := rfl
@[simp] theorem State.record_err (s : State) (w : Word) : (s.record w).err = s.err := rfl
@[simp] theorem State.record_inReset (s : State) (w : Word) : (s.record w).inReset = s.inReset := rfl
@[simp] theorem State.record_inputs (s : State) (w : Word) : (s.record w).inputs = s.inputs := rfl
@[simp] theorem State.record_reads (s : State) (w : Word) : (s.record w).reads = w :: s.reads := rfl
@[simp] theorem State.record_wait (s : State) (w : Word) : (s.record w).wait = s.wait := rfl
@[simp] theorem State.record_latencies (s : State) (w : Word) : (s.record w).latencies = s.latencies := rfl
@[simp] theorem State.record_fresh (s : State) (w : Word) : (s.record w).fresh = s.fresh + 1 := rfl

@[simp] theorem State.resetBlock_din (s : State) : (s.resetBlock).din = Vector.replicate 16 0 := rfl
@[simp] theorem State.resetBlock_digest (s : State) : (s.resetBlock).digest = Vector.replicate 8 0 := rfl
@[simp] theorem State.resetBlock_aesout (s : State) : (s.resetBlock).aesout = Vector.replicate 4 0 := rfl
@[simp] theorem State.resetBlock_rk (s : State) : (s.resetBlock).rk = Vector.replicate 44 0 := rfl
@[simp] theorem State.resetBlock_h (s : State) : (s.resetBlock).h = Vector.replicate 8 0 := rfl
@[simp] theorem State.resetBlock_buf (s : State) : (s.resetBlock).buf = Vector.replicate 64 0 := rfl
@[simp] theorem State.resetBlock_bufcnt (s : State) : (s.resetBlock).bufcnt = 0 := rfl
@[simp] theorem State.resetBlock_bitlen (s : State) : (s.resetBlock).bitlen = 0 := rfl
@[simp] theorem State.resetBlock_shaState (s : State) : (s.resetBlock).shaState = .uninit := rfl
@[simp] theorem State.resetBlock_hmacInner (s : State) : (s.resetBlock).hmacInner = false := rfl
@[simp] theorem State.resetBlock_k0 (s : State) : (s.resetBlock).k0 = Vector.replicate 64 0 := rfl
@[simp] theorem State.resetBlock_busy (s : State) : (s.resetBlock).busy = false := rfl
@[simp] theorem State.resetBlock_pend (s : State) : (s.resetBlock).pend = none := rfl
@[simp] theorem State.resetBlock_err (s : State) : (s.resetBlock).err = 0 := rfl
@[simp] theorem State.resetBlock_inReset (s : State) : (s.resetBlock).inReset = s.inReset := rfl
@[simp] theorem State.resetBlock_inputs (s : State) : (s.resetBlock).inputs = s.inputs := rfl
@[simp] theorem State.resetBlock_reads (s : State) : (s.resetBlock).reads = s.reads := rfl
@[simp] theorem State.resetBlock_wait (s : State) : (s.resetBlock).wait = 0 := rfl
@[simp] theorem State.resetBlock_latencies (s : State) : (s.resetBlock).latencies = s.latencies := rfl
@[simp] theorem State.resetBlock_fresh (s : State) : (s.resetBlock).fresh = s.fresh := rfl

@[simp] theorem State.ctxInit_din (s : State) : (s.ctxInit).din = s.din := rfl
@[simp] theorem State.ctxInit_digest (s : State) : (s.ctxInit).digest = s.digest := rfl
@[simp] theorem State.ctxInit_aesout (s : State) : (s.ctxInit).aesout = s.aesout := rfl
@[simp] theorem State.ctxInit_rk (s : State) : (s.ctxInit).rk = s.rk := rfl
@[simp] theorem State.ctxInit_h (s : State) : (s.ctxInit).h = iv := rfl
@[simp] theorem State.ctxInit_buf (s : State) : (s.ctxInit).buf = Vector.replicate 64 0 := rfl
@[simp] theorem State.ctxInit_bufcnt (s : State) : (s.ctxInit).bufcnt = 0 := rfl
@[simp] theorem State.ctxInit_bitlen (s : State) : (s.ctxInit).bitlen = 0 := rfl
@[simp] theorem State.ctxInit_shaState (s : State) : (s.ctxInit).shaState = .active := rfl
@[simp] theorem State.ctxInit_hmacInner (s : State) : (s.ctxInit).hmacInner = s.hmacInner := rfl
@[simp] theorem State.ctxInit_k0 (s : State) : (s.ctxInit).k0 = s.k0 := rfl
@[simp] theorem State.ctxInit_busy (s : State) : (s.ctxInit).busy = s.busy := rfl
@[simp] theorem State.ctxInit_pend (s : State) : (s.ctxInit).pend = s.pend := rfl
@[simp] theorem State.ctxInit_err (s : State) : (s.ctxInit).err = s.err := rfl
@[simp] theorem State.ctxInit_inReset (s : State) : (s.ctxInit).inReset = s.inReset := rfl
@[simp] theorem State.ctxInit_inputs (s : State) : (s.ctxInit).inputs = s.inputs := rfl
@[simp] theorem State.ctxInit_reads (s : State) : (s.ctxInit).reads = s.reads := rfl
@[simp] theorem State.ctxInit_wait (s : State) : (s.ctxInit).wait = s.wait := rfl
@[simp] theorem State.ctxInit_latencies (s : State) : (s.ctxInit).latencies = s.latencies := rfl
@[simp] theorem State.ctxInit_fresh (s : State) : (s.ctxInit).fresh = s.fresh := rfl

@[simp] theorem State.addBits_din (s : State) (n : Nat) : (s.addBits n).din = s.din := rfl
@[simp] theorem State.addBits_digest (s : State) (n : Nat) : (s.addBits n).digest = s.digest := rfl
@[simp] theorem State.addBits_aesout (s : State) (n : Nat) : (s.addBits n).aesout = s.aesout := rfl
@[simp] theorem State.addBits_rk (s : State) (n : Nat) : (s.addBits n).rk = s.rk := rfl
@[simp] theorem State.addBits_h (s : State) (n : Nat) : (s.addBits n).h = s.h := rfl
@[simp] theorem State.addBits_buf (s : State) (n : Nat) : (s.addBits n).buf = s.buf := rfl
@[simp] theorem State.addBits_bufcnt (s : State) (n : Nat) : (s.addBits n).bufcnt = s.bufcnt := rfl
@[simp] theorem State.addBits_bitlen (s : State) (n : Nat) : (s.addBits n).bitlen = s.bitlen + BitVec.ofNat 64 (8 * n) := rfl
@[simp] theorem State.addBits_shaState (s : State) (n : Nat) : (s.addBits n).shaState = s.shaState := rfl
@[simp] theorem State.addBits_hmacInner (s : State) (n : Nat) : (s.addBits n).hmacInner = s.hmacInner := rfl
@[simp] theorem State.addBits_k0 (s : State) (n : Nat) : (s.addBits n).k0 = s.k0 := rfl
@[simp] theorem State.addBits_busy (s : State) (n : Nat) : (s.addBits n).busy = s.busy := rfl
@[simp] theorem State.addBits_pend (s : State) (n : Nat) : (s.addBits n).pend = s.pend := rfl
@[simp] theorem State.addBits_err (s : State) (n : Nat) : (s.addBits n).err = s.err := rfl
@[simp] theorem State.addBits_inReset (s : State) (n : Nat) : (s.addBits n).inReset = s.inReset := rfl
@[simp] theorem State.addBits_inputs (s : State) (n : Nat) : (s.addBits n).inputs = s.inputs := rfl
@[simp] theorem State.addBits_reads (s : State) (n : Nat) : (s.addBits n).reads = s.reads := rfl
@[simp] theorem State.addBits_wait (s : State) (n : Nat) : (s.addBits n).wait = s.wait := rfl
@[simp] theorem State.addBits_latencies (s : State) (n : Nat) : (s.addBits n).latencies = s.latencies := rfl
@[simp] theorem State.addBits_fresh (s : State) (n : Nat) : (s.addBits n).fresh = s.fresh := rfl

@[simp] theorem State.padFinal_din (s : State) : (s.padFinal).din = s.din := rfl
@[simp] theorem State.padFinal_digest (s : State) : (s.padFinal).digest = s.digest := rfl
@[simp] theorem State.padFinal_aesout (s : State) : (s.padFinal).aesout = s.aesout := rfl
@[simp] theorem State.padFinal_rk (s : State) : (s.padFinal).rk = s.rk := rfl
@[simp] theorem State.padFinal_h (s : State) : (s.padFinal).h = compressAll s.h s.finalBytes := rfl
@[simp] theorem State.padFinal_buf (s : State) : (s.padFinal).buf = s.buf := rfl
@[simp] theorem State.padFinal_bufcnt (s : State) : (s.padFinal).bufcnt = 0 := rfl
@[simp] theorem State.padFinal_bitlen (s : State) : (s.padFinal).bitlen = s.bitlen := rfl
@[simp] theorem State.padFinal_shaState (s : State) : (s.padFinal).shaState = s.shaState := rfl
@[simp] theorem State.padFinal_hmacInner (s : State) : (s.padFinal).hmacInner = s.hmacInner := rfl
@[simp] theorem State.padFinal_k0 (s : State) : (s.padFinal).k0 = s.k0 := rfl
@[simp] theorem State.padFinal_busy (s : State) : (s.padFinal).busy = s.busy := rfl
@[simp] theorem State.padFinal_pend (s : State) : (s.padFinal).pend = s.pend := rfl
@[simp] theorem State.padFinal_err (s : State) : (s.padFinal).err = s.err := rfl
@[simp] theorem State.padFinal_inReset (s : State) : (s.padFinal).inReset = s.inReset := rfl
@[simp] theorem State.padFinal_inputs (s : State) : (s.padFinal).inputs = s.inputs := rfl
@[simp] theorem State.padFinal_reads (s : State) : (s.padFinal).reads = s.reads := rfl
@[simp] theorem State.padFinal_wait (s : State) : (s.padFinal).wait = s.wait := rfl
@[simp] theorem State.padFinal_latencies (s : State) : (s.padFinal).latencies = s.latencies := rfl
@[simp] theorem State.padFinal_fresh (s : State) : (s.padFinal).fresh = s.fresh := rfl

@[simp] theorem State.publish_din (s : State) : (s.publish).din = s.din := rfl
@[simp] theorem State.publish_digest (s : State) : (s.publish).digest = s.h := rfl
@[simp] theorem State.publish_aesout (s : State) : (s.publish).aesout = s.aesout := rfl
@[simp] theorem State.publish_rk (s : State) : (s.publish).rk = s.rk := rfl
@[simp] theorem State.publish_h (s : State) : (s.publish).h = s.h := rfl
@[simp] theorem State.publish_buf (s : State) : (s.publish).buf = s.buf := rfl
@[simp] theorem State.publish_bufcnt (s : State) : (s.publish).bufcnt = s.bufcnt := rfl
@[simp] theorem State.publish_bitlen (s : State) : (s.publish).bitlen = s.bitlen := rfl
@[simp] theorem State.publish_shaState (s : State) : (s.publish).shaState = .final := rfl
@[simp] theorem State.publish_hmacInner (s : State) : (s.publish).hmacInner = s.hmacInner := rfl
@[simp] theorem State.publish_k0 (s : State) : (s.publish).k0 = s.k0 := rfl
@[simp] theorem State.publish_busy (s : State) : (s.publish).busy = s.busy := rfl
@[simp] theorem State.publish_pend (s : State) : (s.publish).pend = s.pend := rfl
@[simp] theorem State.publish_err (s : State) : (s.publish).err = s.err := rfl
@[simp] theorem State.publish_inReset (s : State) : (s.publish).inReset = s.inReset := rfl
@[simp] theorem State.publish_inputs (s : State) : (s.publish).inputs = s.inputs := rfl
@[simp] theorem State.publish_reads (s : State) : (s.publish).reads = s.reads := rfl
@[simp] theorem State.publish_wait (s : State) : (s.publish).wait = s.wait := rfl
@[simp] theorem State.publish_latencies (s : State) : (s.publish).latencies = s.latencies := rfl
@[simp] theorem State.publish_fresh (s : State) : (s.publish).fresh = s.fresh := rfl

/-! Taking a latency changes only the schedule of latencies. -/

@[simp] theorem State.takeLatency_din (s : State) : s.takeLatency.din = s.din := by
  unfold State.takeLatency; split <;> rfl
@[simp] theorem State.takeLatency_digest (s : State) : s.takeLatency.digest = s.digest := by
  unfold State.takeLatency; split <;> rfl
@[simp] theorem State.takeLatency_aesout (s : State) : s.takeLatency.aesout = s.aesout := by
  unfold State.takeLatency; split <;> rfl
@[simp] theorem State.takeLatency_rk (s : State) : s.takeLatency.rk = s.rk := by
  unfold State.takeLatency; split <;> rfl
@[simp] theorem State.takeLatency_h (s : State) : s.takeLatency.h = s.h := by
  unfold State.takeLatency; split <;> rfl
@[simp] theorem State.takeLatency_buf (s : State) : s.takeLatency.buf = s.buf := by
  unfold State.takeLatency; split <;> rfl
@[simp] theorem State.takeLatency_bufcnt (s : State) : s.takeLatency.bufcnt = s.bufcnt := by
  unfold State.takeLatency; split <;> rfl
@[simp] theorem State.takeLatency_bitlen (s : State) : s.takeLatency.bitlen = s.bitlen := by
  unfold State.takeLatency; split <;> rfl
@[simp] theorem State.takeLatency_shaState (s : State) : s.takeLatency.shaState = s.shaState := by
  unfold State.takeLatency; split <;> rfl
@[simp] theorem State.takeLatency_hmacInner (s : State) : s.takeLatency.hmacInner = s.hmacInner := by
  unfold State.takeLatency; split <;> rfl
@[simp] theorem State.takeLatency_k0 (s : State) : s.takeLatency.k0 = s.k0 := by
  unfold State.takeLatency; split <;> rfl
@[simp] theorem State.takeLatency_busy (s : State) : s.takeLatency.busy = s.busy := by
  unfold State.takeLatency; split <;> rfl
@[simp] theorem State.takeLatency_pend (s : State) : s.takeLatency.pend = s.pend := by
  unfold State.takeLatency; split <;> rfl
@[simp] theorem State.takeLatency_err (s : State) : s.takeLatency.err = s.err := by
  unfold State.takeLatency; split <;> rfl
@[simp] theorem State.takeLatency_inReset (s : State) : s.takeLatency.inReset = s.inReset := by
  unfold State.takeLatency; split <;> rfl
@[simp] theorem State.takeLatency_inputs (s : State) : s.takeLatency.inputs = s.inputs := by
  unfold State.takeLatency; split <;> rfl
@[simp] theorem State.takeLatency_reads (s : State) : s.takeLatency.reads = s.reads := by
  unfold State.takeLatency; split <;> rfl
@[simp] theorem State.takeLatency_wait (s : State) : s.takeLatency.wait = s.wait := by
  unfold State.takeLatency; split <;> rfl

theorem State.takeLatency_cons (s : State) (n : Nat) (l : List Nat) (h : s.latencies = n :: l) :
    s.takeLatency = { s with latencies := l } := by
  unfold State.takeLatency; rw [h]

theorem State.nextLatency_cons (s : State) (n : Nat) (l : List Nat) (h : s.latencies = n :: l) :
    s.nextLatency = n := by
  unfold State.nextLatency; rw [h]; rfl

/-! Absorbing changes only H, BUF, BUFCNT and BITLEN. -/

@[simp] theorem State.absorbByte_din (s : State) (b : Byte) : (s.absorbByte b).din = s.din := by
  unfold State.absorbByte; dsimp only; split <;> rfl
@[simp] theorem State.absorbByte_digest (s : State) (b : Byte) : (s.absorbByte b).digest = s.digest := by
  unfold State.absorbByte; dsimp only; split <;> rfl
@[simp] theorem State.absorbByte_aesout (s : State) (b : Byte) : (s.absorbByte b).aesout = s.aesout := by
  unfold State.absorbByte; dsimp only; split <;> rfl
@[simp] theorem State.absorbByte_rk (s : State) (b : Byte) : (s.absorbByte b).rk = s.rk := by
  unfold State.absorbByte; dsimp only; split <;> rfl
@[simp] theorem State.absorbByte_bitlen (s : State) (b : Byte) : (s.absorbByte b).bitlen = s.bitlen := by
  unfold State.absorbByte; dsimp only; split <;> rfl
@[simp] theorem State.absorbByte_shaState (s : State) (b : Byte) : (s.absorbByte b).shaState = s.shaState := by
  unfold State.absorbByte; dsimp only; split <;> rfl
@[simp] theorem State.absorbByte_hmacInner (s : State) (b : Byte) : (s.absorbByte b).hmacInner = s.hmacInner := by
  unfold State.absorbByte; dsimp only; split <;> rfl
@[simp] theorem State.absorbByte_k0 (s : State) (b : Byte) : (s.absorbByte b).k0 = s.k0 := by
  unfold State.absorbByte; dsimp only; split <;> rfl
@[simp] theorem State.absorbByte_busy (s : State) (b : Byte) : (s.absorbByte b).busy = s.busy := by
  unfold State.absorbByte; dsimp only; split <;> rfl
@[simp] theorem State.absorbByte_pend (s : State) (b : Byte) : (s.absorbByte b).pend = s.pend := by
  unfold State.absorbByte; dsimp only; split <;> rfl
@[simp] theorem State.absorbByte_err (s : State) (b : Byte) : (s.absorbByte b).err = s.err := by
  unfold State.absorbByte; dsimp only; split <;> rfl
@[simp] theorem State.absorbByte_inReset (s : State) (b : Byte) : (s.absorbByte b).inReset = s.inReset := by
  unfold State.absorbByte; dsimp only; split <;> rfl
@[simp] theorem State.absorbByte_inputs (s : State) (b : Byte) : (s.absorbByte b).inputs = s.inputs := by
  unfold State.absorbByte; dsimp only; split <;> rfl
@[simp] theorem State.absorbByte_reads (s : State) (b : Byte) : (s.absorbByte b).reads = s.reads := by
  unfold State.absorbByte; dsimp only; split <;> rfl
@[simp] theorem State.absorbByte_wait (s : State) (b : Byte) : (s.absorbByte b).wait = s.wait := by
  unfold State.absorbByte; dsimp only; split <;> rfl
@[simp] theorem State.absorbByte_latencies (s : State) (b : Byte) : (s.absorbByte b).latencies = s.latencies := by
  unfold State.absorbByte; dsimp only; split <;> rfl
@[simp] theorem State.absorbByte_fresh (s : State) (b : Byte) : (s.absorbByte b).fresh = s.fresh := by
  unfold State.absorbByte; dsimp only; split <;> rfl

@[simp] theorem State.foldl_absorbByte_din (d : List Byte) (s : State) : (d.foldl State.absorbByte s).din = s.din := by
  induction d generalizing s with
  | nil => rfl
  | cons b d ih => rw [List.foldl_cons, ih, State.absorbByte_din]
@[simp] theorem State.foldl_absorbByte_digest (d : List Byte) (s : State) : (d.foldl State.absorbByte s).digest = s.digest := by
  induction d generalizing s with
  | nil => rfl
  | cons b d ih => rw [List.foldl_cons, ih, State.absorbByte_digest]
@[simp] theorem State.foldl_absorbByte_aesout (d : List Byte) (s : State) : (d.foldl State.absorbByte s).aesout = s.aesout := by
  induction d generalizing s with
  | nil => rfl
  | cons b d ih => rw [List.foldl_cons, ih, State.absorbByte_aesout]
@[simp] theorem State.foldl_absorbByte_rk (d : List Byte) (s : State) : (d.foldl State.absorbByte s).rk = s.rk := by
  induction d generalizing s with
  | nil => rfl
  | cons b d ih => rw [List.foldl_cons, ih, State.absorbByte_rk]
@[simp] theorem State.foldl_absorbByte_bitlen (d : List Byte) (s : State) : (d.foldl State.absorbByte s).bitlen = s.bitlen := by
  induction d generalizing s with
  | nil => rfl
  | cons b d ih => rw [List.foldl_cons, ih, State.absorbByte_bitlen]
@[simp] theorem State.foldl_absorbByte_shaState (d : List Byte) (s : State) : (d.foldl State.absorbByte s).shaState = s.shaState := by
  induction d generalizing s with
  | nil => rfl
  | cons b d ih => rw [List.foldl_cons, ih, State.absorbByte_shaState]
@[simp] theorem State.foldl_absorbByte_hmacInner (d : List Byte) (s : State) : (d.foldl State.absorbByte s).hmacInner = s.hmacInner := by
  induction d generalizing s with
  | nil => rfl
  | cons b d ih => rw [List.foldl_cons, ih, State.absorbByte_hmacInner]
@[simp] theorem State.foldl_absorbByte_k0 (d : List Byte) (s : State) : (d.foldl State.absorbByte s).k0 = s.k0 := by
  induction d generalizing s with
  | nil => rfl
  | cons b d ih => rw [List.foldl_cons, ih, State.absorbByte_k0]
@[simp] theorem State.foldl_absorbByte_busy (d : List Byte) (s : State) : (d.foldl State.absorbByte s).busy = s.busy := by
  induction d generalizing s with
  | nil => rfl
  | cons b d ih => rw [List.foldl_cons, ih, State.absorbByte_busy]
@[simp] theorem State.foldl_absorbByte_pend (d : List Byte) (s : State) : (d.foldl State.absorbByte s).pend = s.pend := by
  induction d generalizing s with
  | nil => rfl
  | cons b d ih => rw [List.foldl_cons, ih, State.absorbByte_pend]
@[simp] theorem State.foldl_absorbByte_err (d : List Byte) (s : State) : (d.foldl State.absorbByte s).err = s.err := by
  induction d generalizing s with
  | nil => rfl
  | cons b d ih => rw [List.foldl_cons, ih, State.absorbByte_err]
@[simp] theorem State.foldl_absorbByte_inReset (d : List Byte) (s : State) : (d.foldl State.absorbByte s).inReset = s.inReset := by
  induction d generalizing s with
  | nil => rfl
  | cons b d ih => rw [List.foldl_cons, ih, State.absorbByte_inReset]
@[simp] theorem State.foldl_absorbByte_inputs (d : List Byte) (s : State) : (d.foldl State.absorbByte s).inputs = s.inputs := by
  induction d generalizing s with
  | nil => rfl
  | cons b d ih => rw [List.foldl_cons, ih, State.absorbByte_inputs]
@[simp] theorem State.foldl_absorbByte_reads (d : List Byte) (s : State) : (d.foldl State.absorbByte s).reads = s.reads := by
  induction d generalizing s with
  | nil => rfl
  | cons b d ih => rw [List.foldl_cons, ih, State.absorbByte_reads]
@[simp] theorem State.foldl_absorbByte_wait (d : List Byte) (s : State) : (d.foldl State.absorbByte s).wait = s.wait := by
  induction d generalizing s with
  | nil => rfl
  | cons b d ih => rw [List.foldl_cons, ih, State.absorbByte_wait]
@[simp] theorem State.foldl_absorbByte_latencies (d : List Byte) (s : State) : (d.foldl State.absorbByte s).latencies = s.latencies := by
  induction d generalizing s with
  | nil => rfl
  | cons b d ih => rw [List.foldl_cons, ih, State.absorbByte_latencies]
@[simp] theorem State.foldl_absorbByte_fresh (d : List Byte) (s : State) : (d.foldl State.absorbByte s).fresh = s.fresh := by
  induction d generalizing s with
  | nil => rfl
  | cons b d ih => rw [List.foldl_cons, ih, State.absorbByte_fresh]

@[simp] theorem State.absorb_din (s : State) (d : List Byte) : (s.absorb d).din = s.din := by
  simp [State.absorb]
@[simp] theorem State.absorb_digest (s : State) (d : List Byte) : (s.absorb d).digest = s.digest := by
  simp [State.absorb]
@[simp] theorem State.absorb_aesout (s : State) (d : List Byte) : (s.absorb d).aesout = s.aesout := by
  simp [State.absorb]
@[simp] theorem State.absorb_rk (s : State) (d : List Byte) : (s.absorb d).rk = s.rk := by
  simp [State.absorb]
@[simp] theorem State.absorb_bitlen (s : State) (d : List Byte) : (s.absorb d).bitlen = s.bitlen + BitVec.ofNat 64 (8 * d.length) := by
  simp [State.absorb]
@[simp] theorem State.absorb_shaState (s : State) (d : List Byte) : (s.absorb d).shaState = s.shaState := by
  simp [State.absorb]
@[simp] theorem State.absorb_hmacInner (s : State) (d : List Byte) : (s.absorb d).hmacInner = s.hmacInner := by
  simp [State.absorb]
@[simp] theorem State.absorb_k0 (s : State) (d : List Byte) : (s.absorb d).k0 = s.k0 := by
  simp [State.absorb]
@[simp] theorem State.absorb_busy (s : State) (d : List Byte) : (s.absorb d).busy = s.busy := by
  simp [State.absorb]
@[simp] theorem State.absorb_pend (s : State) (d : List Byte) : (s.absorb d).pend = s.pend := by
  simp [State.absorb]
@[simp] theorem State.absorb_err (s : State) (d : List Byte) : (s.absorb d).err = s.err := by
  simp [State.absorb]
@[simp] theorem State.absorb_inReset (s : State) (d : List Byte) : (s.absorb d).inReset = s.inReset := by
  simp [State.absorb]
@[simp] theorem State.absorb_inputs (s : State) (d : List Byte) : (s.absorb d).inputs = s.inputs := by
  simp [State.absorb]
@[simp] theorem State.absorb_reads (s : State) (d : List Byte) : (s.absorb d).reads = s.reads := by
  simp [State.absorb]
@[simp] theorem State.absorb_wait (s : State) (d : List Byte) : (s.absorb d).wait = s.wait := by
  simp [State.absorb]
@[simp] theorem State.absorb_latencies (s : State) (d : List Byte) : (s.absorb d).latencies = s.latencies := by
  simp [State.absorb]
@[simp] theorem State.absorb_fresh (s : State) (d : List Byte) : (s.absorb d).fresh = s.fresh := by
  simp [State.absorb]

end Sys2Proof.Machine
end

