-- ==== Sys2Proof/Laws/Ops.lean ====
section
/-! SUPPORT. For each shared operation, once, everything it can do: what later proofs cite instead of unfolding it. -/

namespace Sys2Proof.Machine

/-- An acceptance either performs the command at once or leaves it pending. -/
theorem State.accept_cases (s : State) (i : Instr) (p : State → State) :
    (s.nextLatency = 0 ∧ s.accept i p = p s.takeLatency) ∨
    (∃ n, s.nextLatency = n + 1 ∧ s.accept i p = s.takeLatency.setPending i n) := by
  unfold State.accept
  cases h : s.nextLatency with
  | zero => exact .inl ⟨rfl, rfl⟩
  | succ n => exact .inr ⟨n, rfl, rfl⟩

/-- Issuing a command answers a next state: a rejection with one of three codes, or an acceptance. -/
theorem State.issue_cases (s : State) (i : Instr) (p : State → State) :
    (s.busy = true ∧ s.issue i p = .next (s.reject .busy)) ∨
    (s.busy = false ∧ i.wellFormed = false ∧ s.issue i p = .next (s.reject .arg)) ∨
    (s.busy = false ∧ i.wellFormed = true ∧ s.seqOK i = false ∧ s.issue i p = .next (s.reject .sequence)) ∨
    (s.busy = false ∧ i.wellFormed = true ∧ s.seqOK i = true ∧ s.issue i p = .next (s.accept i p)) := by
  unfold State.issue
  cases s.busy <;> cases i.wellFormed <;> cases s.seqOK i <;> simp

/-- Every command but CLR_ERR is issued through the shared checks, with its own completion step. -/
theorem exec_eq_issue (i : Instr) (s : State) (h : i ≠ .clrErr) : exec i s = s.issue i (perform i) := by
  cases i <;> first | rfl | exact absurd rfl h

/-- The engine's step performs what is pending, or stops where nothing is. -/
theorem engineStep_cases (s : State) :
    (∃ i, s.pend = some i ∧ engineStep s = .next (perform i s).clearPending) ∨
    (s.pend = none ∧ engineStep s = .fault .engineWithoutCommand) := by
  unfold engineStep
  cases h : s.pend with
  | none => exact .inr ⟨rfl, rfl⟩
  | some i => exact .inl ⟨i, rfl, rfl⟩

/-- The bus admits exactly the aligned 32-bit accesses inside the window, out of reset. -/
theorem State.refusal_eq_none_iff (s : State) (off : Nat) (width : Width) :
    s.refusal off width = none ↔ off < 0x200 ∧ s.inReset = false ∧ width = .w32 ∧ off % 4 = 0 := by
  unfold State.refusal
  by_cases h1 : 0x200 ≤ off <;> by_cases h2 : s.inReset <;> by_cases h3 : width = .w32 <;>
    by_cases h4 : off % 4 = 0 <;> simp [h1, h2, h3, h4] <;> omega

/-- A refusal is never a next state. -/
theorem State.refusal_not_next (s : State) (off : Nat) (width : Width) (t : State) :
    s.refusal off width ≠ some (.next t) := by
  unfold State.refusal
  split <;> (try split) <;> (try split) <;> (try split) <;> simp

/-- A host read that is answered was admitted and only records a word. -/
theorem hostRead_next {off : Nat} {width : Width} {s t : State} (h : hostRead off width s = .next t) :
    s.refusal off width = none ∧ t = s.record (s.readReg (regAt off) (Config.draw s.fresh)) := by
  unfold hostRead at h
  cases hr : s.refusal off width with
  | some stop => rw [hr] at h; exact absurd (hr.trans (congrArg some h)) (s.refusal_not_next off width t)
  | none => rw [hr] at h; cases h; exact ⟨rfl, rfl⟩

/-- A host write that is answered was admitted and wrote the register it names. -/
theorem hostWrite_next {off : Nat} {width : Width} {v : Word} {s t : State} (h : hostWrite off width v s = .next t) :
    s.refusal off width = none ∧ s.writeReg (regAt off) v = .next t := by
  unfold hostWrite at h
  cases hr : s.refusal off width with
  | some stop => rw [hr] at h; exact absurd (hr.trans (congrArg some h)) (s.refusal_not_next off width t)
  | none => rw [hr] at h; exact ⟨rfl, h⟩

/-- A CMD write is a rejection or the meaning of the decoded command. -/
theorem issueCommand_cases (v : Word) (s : State) :
    (∃ c, issueCommand v s = .next (s.reject c)) ∨ (∃ i, decode v = .ok i ∧ issueCommand v s = exec i s) := by
  unfold issueCommand
  split
  · exact .inl ⟨_, rfl⟩
  · cases h : decode v with
    | error r => exact .inl ⟨_, rfl⟩
    | ok i => exact .inr ⟨i, rfl, rfl⟩

/-- One round of POLL records STATUS and stays at the head of the inputs exactly while its bit 0 is 1. -/
theorem hostPoll_next {s t : State} (h : hostPoll s = .next t) :
    ∃ w, t = s.record w ∨ t = { s.record w with inputs := .poll :: s.inputs } := by
  unfold hostPoll at h
  cases hr : hostRead 0x008 .w32 s with
  | next u =>
    obtain ⟨-, rfl⟩ := hostRead_next hr
    rw [hr] at h
    dsimp only at h
    split at h <;> cases h
    · exact ⟨_, .inr rfl⟩
    · exact ⟨_, .inl rfl⟩
  | fault f => rw [hr] at h; cases h
  | refused r => rw [hr] at h; cases h

/-- Whose turn a step is: the engine's, the next input's, or nobody's. -/
theorem transition_cases (s : State) :
    (s.engineTurn = true ∧ transition s = engineStep s) ∨
    (s.engineTurn = false ∧ s.inputs = [] ∧ transition s = .next s.tick) ∨
    (∃ i rest, s.engineTurn = false ∧ s.inputs = i :: rest ∧
      transition s = takeInput i { s.tick with inputs := rest }) := by
  unfold transition
  cases s.engineTurn with
  | true => exact .inl ⟨rfl, rfl⟩
  | false =>
    cases h : s.inputs with
    | nil => exact .inr (.inl ⟨rfl, rfl, rfl⟩)
    | cons i rest => exact .inr (.inr ⟨i, rest, rfl, rfl, rfl⟩)

end Sys2Proof.Machine
end

