-- ==== Sys2Proof/Laws/Engine.lean ====
section
/-! SUPPORT. A completion step neither reads nor writes BUSY, PEND, ERR, the reset input or the outside world (43_control.md R262):
it commutes with setting them. -/

namespace Sys2Proof.Machine

/-- The state `s` with the sequencing state, ERR, the reset input and the outside world of `e`. -/
def State.withEnv (s e : State) : State :=
  { s with busy := e.busy, pend := e.pend, err := e.err, inReset := e.inReset, inputs := e.inputs, reads := e.reads,
           wait := e.wait, latencies := e.latencies, fresh := e.fresh }

theorem State.absorbByte_withEnv (s e : State) (b : Byte) :
    (s.withEnv e).absorbByte b = (s.absorbByte b).withEnv e := by
  unfold State.absorbByte
  by_cases h : s.bufcnt.toNat + 1 = 64 <;> simp [State.withEnv, h]

theorem State.absorb_withEnv (s e : State) (d : List Byte) : (s.withEnv e).absorb d = (s.absorb d).withEnv e := by
  have h : d.foldl State.absorbByte (s.withEnv e) = (d.foldl State.absorbByte s).withEnv e := by
    induction d generalizing s with
    | nil => rfl
    | cons b d ih => rw [List.foldl_cons, List.foldl_cons, State.absorbByte_withEnv, ih]
  rw [State.absorb, State.absorb, h]; rfl

/-- A completion step commutes with the sequencing state and the outside world. -/
theorem perform_withEnv (i : Instr) (s e : State) : perform i (s.withEnv e) = (perform i s).withEnv e := by
  cases i with
  | shaUpdate len => exact s.absorb_withEnv e _
  | hmacStart =>
    show { (s.ctxInit.withEnv e).absorb (ipad s.k0) with hmacInner := true } = _
    rw [State.absorb_withEnv]; rfl
  | hmacFinish =>
    have h (t : State) (inner : List Byte) : (t.withEnv e).outerPass inner = (t.outerPass inner).withEnv e := by
      show (((t.ctxInit.withEnv e).absorb (opad t.k0)).absorb inner).padFinal = _
      rw [State.absorb_withEnv, State.absorb_withEnv]; rfl
    show { ((s.padFinal.withEnv e).outerPass (bytesOf s.padFinal.h.toList)).publish with
      hmacInner := false, k0 := Vector.replicate 64 0 } = _
    rw [h]; rfl
  | _ => rfl

/-- A completion step leaves the sequencing state, ERR, the reset input and the outside world. -/
theorem perform_env (i : Instr) (s : State) : perform i s = (perform i s).withEnv s := by
  rw [← perform_withEnv]; rfl

end Sys2Proof.Machine
end

