-- ==== Sys2Proof/Laws/Flags.lean ====
section
/-! SUPPORT. STATUS as a number, and its busy bit (10_state.md R24). -/

namespace Sys2Proof.Machine

/-- Concatenation as arithmetic. -/
theorem toNat_append_eq {m n : Nat} (x : BitVec m) (y : BitVec n) :
    (x ++ y).toNat = x.toNat * 2 ^ n + y.toNat := by
  rw [BitVec.toNat_append, Nat.shiftLeft_eq, Nat.mul_comm, ← Nat.two_pow_add_eq_or_of_lt y.isLt]

/-- The fields of STATUS at their places, as a number (R24). -/
theorem packStatus_toNat (err : BitVec 4) (bufcnt : BitVec 6) (inner : BitVec 1) (sha : BitVec 2) (busy : BitVec 1) :
    (packStatus err bufcnt inner sha busy).toNat =
      err.toNat * 2 ^ 16 + bufcnt.toNat * 2 ^ 8 + inner.toNat * 2 ^ 3 + sha.toNat * 2 + busy.toNat := by
  refine (toNat_append_eq (0#12 ++ err ++ 0#2 ++ bufcnt ++ 0#4 ++ inner ++ sha) busy).trans ?_
  simp only [toNat_append_eq]
  simp; omega

/-- Bit 0 of STATUS is BUSY, whatever is drawn (R24, R260). -/
theorem State.statusWord_bit0 (s : State) (draw : Word) : (s.statusWord draw).getLsbD 0 = s.busy := by
  have h (w : Word) : w.getLsbD 0 = decide (w.toNat % 2 = 1) := by
    rw [BitVec.getLsbD, Nat.testBit_zero]
  rw [h]
  unfold State.statusWord
  cases s.busy <;> simp [packStatus_toNat] <;> omega

end Sys2Proof.Machine
end

