-- ==== Sys2Proof/Laws/PerInstr.lean ====
section
/-! SUPPORT. Statements about every command as syntax, one lemma per constructor: the encoded word of a command selects its row
of the opcode map (30_encoding.md R93). -/

namespace Sys2Proof.Laws

/-- The encoded word selects the command's row: v & mask = word (R93). -/
def TableRow.Statement (i : Instr) : Prop := encode i &&& tableMask i = tableWord i

theorem TableRow.nop : TableRow.Statement .nop := by unfold TableRow.Statement; decide
theorem TableRow.shaInit : TableRow.Statement .shaInit := by unfold TableRow.Statement; decide
theorem TableRow.shaUpdate (len : BitVec 7) : TableRow.Statement (.shaUpdate len) := by
  revert len; unfold TableRow.Statement; decide +kernel
theorem TableRow.shaFinal : TableRow.Statement .shaFinal := by unfold TableRow.Statement; decide
theorem TableRow.hmacKey (len : BitVec 7) : TableRow.Statement (.hmacKey len) := by
  revert len; unfold TableRow.Statement; decide +kernel
theorem TableRow.hmacKeyDigest : TableRow.Statement .hmacKeyDigest := by unfold TableRow.Statement; decide
theorem TableRow.hmacStart : TableRow.Statement .hmacStart := by unfold TableRow.Statement; decide
theorem TableRow.hmacFinish : TableRow.Statement .hmacFinish := by unfold TableRow.Statement; decide
theorem TableRow.aesKeyexp : TableRow.Statement .aesKeyexp := by unfold TableRow.Statement; decide
theorem TableRow.aesEnc : TableRow.Statement .aesEnc := by unfold TableRow.Statement; decide
theorem TableRow.aesDec : TableRow.Statement .aesDec := by unfold TableRow.Statement; decide
theorem TableRow.clrErr : TableRow.Statement .clrErr := by unfold TableRow.Statement; decide

end Sys2Proof.Laws
end

