-- ==== Sys2Proof/Laws/Sha.lean ====
section
/-! SUPPORT. What absorbing bytes does, once: the context holds the chaining value of the whole blocks seen so far and the bytes
that follow them (40_sha256.md R132, R133). -/

namespace Sys2Proof.Machine

/-- The bytes that BUF holds: BUF[0..BUFCNT-1] (R31). -/
def State.buffered (s : State) : List Byte := s.buf.toList.take s.bufcnt.toNat

theorem State.buffered_length (s : State) : s.buffered.length = s.bufcnt.toNat := by
  have := s.bufcnt.isLt
  simp [State.buffered]; omega

theorem getElem_blockOf (p : List Byte) (i : Nat) (hi : i < 64) : (blockOf p)[i] = p.getD i 0 := by
  simp [blockOf]

/-- The first block of a sequence of at least 64 bytes depends on its first 64 bytes alone. -/
theorem blockOf_append (p q : List Byte) (hp : 64 ≤ p.length) : blockOf (p ++ q) = blockOf p := by
  ext i hi
  rw [getElem_blockOf _ _ hi, getElem_blockOf _ _ hi, List.getD_append _ _ _ _ (by omega)]

theorem blockOf_toList (b : Vector Byte 64) : blockOf b.toList = b := by
  ext i hi
  rw [getElem_blockOf _ _ hi, List.getD_eq_getElem _ _ (by simpa using hi)]
  simp

/-- A block in front comes first among the blocks. -/
theorem blocks_append (p q : List Byte) (hp : p.length = 64) : blocks (p ++ q) = blockOf p :: blocks q := by
  have hl : (p ++ q).length / 64 = q.length / 64 + 1 := by
    rw [List.length_append]; omega
  unfold blocks
  rw [hl, List.range_succ_eq_map, List.map_cons, List.map_map]
  refine congrArg₂ List.cons ?_ ?_
  · exact blockOf_append p q (by omega)
  · apply List.map_congr_left
    intro k _
    have : 64 * (k + 1) = p.length + 64 * k := by omega
    show blockOf ((p ++ q).drop (64 * (k + 1))) = _
    rw [this, List.drop_length_add_append]

theorem blocks_short (p : List Byte) (hp : p.length < 64) : blocks p = [] := by
  simp [blocks, Nat.div_eq_of_lt hp]

theorem compressAll_append (h : Vector Word 8) (p q : List Byte) (hp : p.length = 64) :
    compressAll h (p ++ q) = compressAll (compress h (blockOf p)) q := by
  rw [compressAll, compressAll, blocks_append p q hp, List.foldl_cons]

theorem compressAll_short (h : Vector Word 8) (p : List Byte) (hp : p.length < 64) : compressAll h p = h := by
  simp [compressAll, blocks_short p hp]

theorem take_set_eq (l : List Byte) (n : Nat) (b : Byte) (hn : n < l.length) :
    (l.set n b).take (n + 1) = l.take n ++ [b] := by
  rw [List.take_add_one, List.take_set_of_le (Nat.le_refl n), List.getElem?_set_self hn]
  rfl

/-- One byte: the buffer grows by it, or the block it completes is compressed and the buffer is empty. -/
theorem State.absorbByte_cases (s : State) (b : Byte) :
    (s.bufcnt.toNat < 63 ∧ (s.absorbByte b).h = s.h ∧ (s.absorbByte b).buffered = s.buffered ++ [b]) ∨
    (s.bufcnt.toNat = 63 ∧ (s.absorbByte b).h = compress s.h (blockOf (s.buffered ++ [b])) ∧
      (s.absorbByte b).buffered = []) := by
  have hlt := s.bufcnt.isLt
  have hset : (s.buf.set s.bufcnt.toNat b).toList.take (s.bufcnt.toNat + 1) = s.buffered ++ [b] := by
    rw [Vector.toList_set, take_set_eq _ _ _ (by simpa using hlt)]
    rfl
  unfold State.absorbByte
  by_cases h : s.bufcnt.toNat + 1 = 64
  · refine .inr ⟨by omega, ?_, ?_⟩
    · simp only [h, if_true]
      rw [← hset, h, List.take_of_length_le (by simp), blockOf_toList]
    · simp only [h, if_true]
      rfl
  · refine .inl ⟨by omega, ?_, ?_⟩
    · simp only [h, if_false]
    · simp only [h, if_false]
      have : (s.bufcnt + 1).toNat = s.bufcnt.toNat + 1 := by
        rw [BitVec.toNat_add]; exact Nat.mod_eq_of_lt (by simp; omega)
      rw [State.buffered, this]
      exact hset

/-- Absorbing `d`: the buffered bytes followed by `d` are compressed as far as they make whole blocks, and the rest is buffered. -/
theorem State.foldl_absorbByte_spec (d : List Byte) (s : State) :
    (d.foldl State.absorbByte s).h = compressAll s.h (s.buffered ++ d) ∧
    (d.foldl State.absorbByte s).buffered = (s.buffered ++ d).drop (64 * ((s.buffered ++ d).length / 64)) := by
  induction d generalizing s with
  | nil =>
    have hb := s.buffered_length
    have hlt := s.bufcnt.isLt
    rw [List.append_nil]
    refine ⟨(compressAll_short _ _ (by omega)).symm, ?_⟩
    rw [Nat.div_eq_of_lt (by omega)]; rfl
  | cons b d ih =>
    rw [List.foldl_cons]
    obtain ⟨ih1, ih2⟩ := ih (s.absorbByte b)
    have happ : s.buffered ++ b :: d = (s.buffered ++ [b]) ++ d := by simp
    rw [happ, ih1, ih2]
    rcases s.absorbByte_cases b with ⟨-, h1, h2⟩ | ⟨hc, h1, h2⟩
    · rw [h1, h2]; exact ⟨rfl, rfl⟩
    · have hl : (s.buffered ++ [b]).length = 64 := by simp [s.buffered_length, hc]
      rw [h1, h2, compressAll_append _ _ _ hl, List.nil_append]
      refine ⟨rfl, ?_⟩
      have hd : (64 + d.length) / 64 = d.length / 64 + 1 := by omega
      rw [List.length_append, hl, hd, List.drop_append, List.drop_eq_nil_of_le (as := s.buffered ++ [b]) (by omega), hl,
        List.nil_append, Nat.mul_add, Nat.mul_one, Nat.add_sub_cancel]

/-- BUFCNT after absorbing is the number of bytes buffered, modulo a block. -/
theorem State.foldl_absorbByte_bufcnt (d : List Byte) (s : State) :
    (d.foldl State.absorbByte s).bufcnt.toNat = (s.bufcnt.toNat + d.length) % 64 := by
  have h := (s.foldl_absorbByte_spec d).2
  have hb := congrArg List.length h
  rw [State.buffered_length, List.length_drop, List.length_append, State.buffered_length] at hb
  omega

/-- `Absorb(D)` (R132), all of it. -/
theorem State.absorb_spec (s : State) (d : List Byte) :
    (s.absorb d).h = compressAll s.h (s.buffered ++ d) ∧
    (s.absorb d).buffered = (s.buffered ++ d).drop (64 * ((s.buffered ++ d).length / 64)) ∧
    (s.absorb d).bufcnt.toNat = (s.bufcnt.toNat + d.length) % 64 ∧
    (s.absorb d).bitlen = s.bitlen + BitVec.ofNat 64 (8 * d.length) :=
  ⟨(s.foldl_absorbByte_spec d).1, (s.foldl_absorbByte_spec d).2, s.foldl_absorbByte_bufcnt d, by simp⟩

/-- Absorbing changes nothing but the context. -/
theorem State.absorb_frame (s : State) (d : List Byte) :
    s.absorb d = { s with h := (s.absorb d).h, buf := (s.absorb d).buf, bufcnt := (s.absorb d).bufcnt,
                          bitlen := (s.absorb d).bitlen } := by
  ext1 <;> simp

theorem beBytes64_length (l : BitVec 64) : (beBytes64 l).length = 8 := by simp [beBytes64]

/-- The final bytes are one block for up to 55 buffered bytes, and two from 56 (R134). -/
theorem State.finalBytes_length (s : State) :
    s.finalBytes.length = if s.bufcnt.toNat ≤ 55 then 64 else 128 := by
  have hlt := s.bufcnt.isLt
  have hb := s.buffered_length
  unfold State.buffered at hb
  simp only [State.finalBytes, padding, padZeros, List.length_append, List.length_cons, List.length_replicate,
    beBytes64_length, hb]
  split <;> omega

/-- Compressing one block, or two. -/
theorem compressAll_final (h : Vector Word 8) (p : List Byte) :
    (p.length = 64 → compressAll h p = compress h (blockOf p)) ∧
    (p.length = 128 → compressAll h p = compress (compress h (blockOf p)) (blockOf (p.drop 64))) := by
  refine ⟨fun hp => ?_, fun hp => ?_⟩
  · have := compressAll_append h p [] hp
    rwa [List.append_nil, compressAll_short _ [] (by simp)] at this
  · have h1 := compressAll_append h (p.take 64) (p.drop 64) (by simp; omega)
    have h2 := compressAll_append (compress h (blockOf (p.take 64))) (p.drop 64) [] (by simp; omega)
    have h3 := blockOf_append (p.take 64) (p.drop 64) (by simp; omega)
    rw [List.take_append_drop] at h1 h3
    rw [List.append_nil, compressAll_short _ [] (by simp)] at h2
    rw [h1, h2, h3]

end Sys2Proof.Machine
end

