-- ==== Sys2Proof/Laws/Program.lean ====
section
/-! SUPPORT. What the host-program instructions LOADB, DO and RD do in a run (30_encoding.md R97, R98), each once: a program is
followed one instruction at a time, for every latency of its commands. What the parts of R139 do: the updates and the reads; and
what loading a schedule and `aes128_encrypt_block` do (R99). -/

namespace Sys2Proof.Machine

/-- Some run from `s` reaches `t`, which is idle and out of reset, has `rest` still to come, has the block's elements of `u`, and
has the ERR of `s`. -/
structure Reached (s u t : State) (rest : List HostInput) : Prop where
  run : ∃ n, core.run n s = .next t
  block : t = u.withEnv t
  idle : t.busy = false
  running : t.inReset = false
  inputs : t.inputs = rest
  err : t.err = s.err

/-- An idle state out of reset has reached itself. -/
theorem Reached.start {s : State} (h1 : s.busy = false) (h2 : s.inReset = false) : Reached s s s s.inputs :=
  ⟨⟨0, core_run_zero s⟩, rfl, h1, h2, rfl, rfl⟩

/-- A longer run from a reached state reaches what it ends in. -/
theorem Reached.next {s u v t w : State} {rest rest' : List HostInput} (h : Reached s u t rest) {n : Nat}
    (hr : core.run n t = .next w) (hb : w = v.withEnv w) (h1 : w.busy = false) (h2 : w.inReset = false)
    (h3 : w.inputs = rest') (h4 : w.err = t.err) : Reached s v w rest' :=
  ⟨h.run.elim fun m hm => ⟨m + n, (core_run_add n hm).trans hr⟩, hb, h1, h2, h3, h4.trans h.err⟩

/-- The sequence condition reads only elements of the block (R287). -/
theorem State.seqOK_withEnv (s e : State) (i : Instr) : (s.withEnv e).seqOK i = s.seqOK i := by cases i <;> rfl

/-- When it is not the engine's turn, an input admitted by the bus is taken with one step passed. -/
theorem step_takeInput {s : State} {i : HostInput} {rest : List HostInput} (ht : s.engineTurn = false)
    (hi : s.inputs = i :: rest) : step s = takeInput i { s.tick with inputs := rest } := by
  simp [step, transition, ht, hi]

theorem State.engineTurn_of_idle {s : State} (h : s.busy = false) : s.engineTurn = false := by
  simp [State.engineTurn, h]

/-- One round of POLL: the STATUS word is recorded, and the POLL stays exactly while BUSY = 1 (R98, R268). -/
theorem step_poll {s : State} {rest : List HostInput} (hr : s.inReset = false) (ht : s.engineTurn = false)
    (hi : s.inputs = .poll :: rest) :
    step s = .next { s with
      wait := s.wait - 1, inputs := if s.busy then .poll :: rest else rest
      reads := s.statusWord (Config.draw s.fresh) :: s.reads, fresh := s.fresh + 1 } := by
  rw [step_takeInput ht hi]
  have hn : State.refusal { s.tick with inputs := rest } 8 .w32 = none := by
    rw [State.refusal_eq_none_iff]; simp [hr]
  have hbit : (s.statusWord (Config.draw s.fresh)).getLsbD 0 = s.busy := s.statusWord_bit0 _
  simp only [takeInput, hostPoll, hostRead, hn]
  show (if (s.statusWord (Config.draw s.fresh)).getLsbD 0 = true then _ else _) = _
  rw [hbit]
  by_cases hb : s.busy = true
  · rw [if_pos hb]; simp only [if_pos hb]; rfl
  · rw [if_neg hb]; simp only [if_neg hb]; rfl

/-- The engine's turn with a pending command. -/
theorem step_engine {s : State} {i : Instr} (ht : s.engineTurn = true) (hp : s.pend = some i) :
    step s = .next (perform i s).clearPending := by
  simp [step, transition, ht, engineStep, hp]

/-- An admitted 32-bit write to CMD of a command's word is `exec` of the command (R262). -/
theorem step_cmd {s : State} {i : Instr} {rest : List HostInput} (hb : s.busy = false) (hr : s.inReset = false)
    (hd : decode (encode i) = .ok i) (hi : s.inputs = .write 0x004 .w32 (encode i) :: rest) :
    step s = exec i { s with wait := s.wait - 1, inputs := rest } := by
  rw [step_takeInput (State.engineTurn_of_idle hb) hi]
  have hn : State.refusal { s.tick with inputs := rest } 4 .w32 = none := by
    rw [State.refusal_eq_none_iff]; simp [hr]
  simp only [takeInput, hostWrite, hn]
  show issueCommand (encode i) { s.tick with inputs := rest } = _
  rw [issueCommand, if_neg (by simp [hb]), hd]
  rfl

/-- POLL over a pending command ends with the block idle, its elements those the completion step leaves. -/
theorem run_poll_pending {i : Instr} {rest : List HostInput} (n : Nat) {s : State} (hb : s.busy = true) (hp : s.pend = some i)
    (hr : s.inReset = false) (hi : s.inputs = .poll :: rest) (hn : s.wait = n) :
    ∃ t, core.run (n + 2) s = .next t ∧ t = (perform i s).withEnv t ∧ t.busy = false ∧ t.inReset = false ∧
      t.inputs = rest ∧ t.err = s.err := by
  induction n generalizing s with
  | zero =>
    have h1 := step_engine (s := s) (by simp [State.engineTurn, hb, hr, hn]) hp
    have he := perform_env i s
    have h2 := step_poll (s := (perform i s).clearPending) (rest := rest) (by rw [he]; exact hr) (by simp [State.engineTurn])
      (by rw [he]; exact hi)
    refine ⟨_, (core_run_succ 1 h1).trans (core_run_succ 0 h2), rfl, rfl, ?_, by simp, ?_⟩
    · show (perform i s).inReset = false
      rw [he]; exact hr
    · show (perform i s).err = s.err
      rw [he]; rfl
  | succ n ih =>
    have h1 := step_poll hr (by simp [State.engineTurn, hn]) hi
    generalize hv : ({ s with
      wait := s.wait - 1, inputs := if s.busy then .poll :: rest else rest
      reads := s.statusWord (Config.draw s.fresh) :: s.reads, fresh := s.fresh + 1 } : State) = v at h1
    obtain ⟨t, h2, h3, h4, h5, h6, h7⟩ := ih (s := v) (by rw [← hv]; exact hb) (by rw [← hv]; exact hp)
      (by rw [← hv]; exact hr) (by rw [← hv]; simp [hb]) (by rw [← hv]; simp [hn])
    have hvb : perform i v = (perform i s).withEnv v := by
      rw [← perform_withEnv]; rw [← hv]; rfl
    rw [hvb] at h3
    exact ⟨t, (core_run_succ _ h1).trans h2, h3, h4, h5, h6, h7.trans (by rw [← hv])⟩

/-- `DO i` (R98) for a command that is admitted: whatever its latency, it ends with the block idle and the command performed. -/
theorem Reached.doCmd {s u t : State} {i : Instr} {rest : List HostInput}
    (h : Reached s u t ((HostOp.doCmd i).expand ++ rest)) (hc : i ≠ .clrErr) (hd : decode (encode i) = .ok i)
    (hw : i.wellFormed = true) (hq : u.seqOK i = true) : ∃ w, Reached s (perform i u) w rest := by
  have h1 := step_cmd (rest := .poll :: rest) h.idle h.running hd h.inputs
  generalize hv : ({ t with wait := t.wait - 1, inputs := .poll :: rest } : State) = v at h1
  have hvb : v = u.withEnv v := by rw [← hv, h.block]; rfl
  have hv1 : v.busy = false := by rw [← hv]; exact h.idle
  have hv2 : v.inReset = false := by rw [← hv]; exact h.running
  have hv3 : v.inputs = .poll :: rest := by rw [← hv]
  have hv4 : v.err = t.err := by rw [← hv]
  have hvq : v.seqOK i = true := by rw [hvb, State.seqOK_withEnv]; exact hq
  rw [exec_eq_issue i v hc, State.issue, if_neg (by simp [hv1]), if_pos hw, if_pos hvq] at h1
  have htl : v.takeLatency = v.withEnv v.takeLatency := by unfold State.takeLatency; split <;> rfl
  have hte : v.takeLatency.busy = false ∧ v.takeLatency.inReset = false ∧ v.takeLatency.inputs = .poll :: rest ∧
      v.takeLatency.err = t.err := by
    unfold State.takeLatency; split <;> exact ⟨hv1, hv2, hv3, hv4⟩
  have hpe (e : State) : perform i (v.withEnv e) = (perform i u).withEnv e := by
    rw [hvb]; exact perform_withEnv i u e
  rcases v.accept_cases i (perform i) with ⟨-, ha⟩ | ⟨n, -, ha⟩
  · have hp : perform i v.takeLatency = (perform i u).withEnv v.takeLatency := by rw [htl]; exact hpe _
    rw [ha, hp] at h1
    have h2 := step_poll (s := (perform i u).withEnv v.takeLatency) hte.2.1 (State.engineTurn_of_idle hte.1) hte.2.2.1
    exact ⟨_, h.next ((core_run_succ 1 h1).trans (core_run_succ 0 h2)) rfl hte.1 hte.2.1
      (by show (if v.takeLatency.busy = true then _ else _) = _; rw [hte.1]; rfl) hte.2.2.2⟩
  · rw [ha] at h1
    obtain ⟨w, h2, h3, h4, h5, h6, h7⟩ := run_poll_pending n (s := v.takeLatency.setPending i n) rfl rfl hte.2.1 hte.2.2.1 rfl
    have hp : perform i (v.takeLatency.setPending i n) = (perform i u).withEnv (v.takeLatency.setPending i n) := by
      rw [← hpe, htl]; rfl
    rw [hp] at h3
    exact ⟨w, h.next ((core_run_succ _ h1).trans h2) h3 h4 h5 h6 (h7.trans hte.2.2.2)⟩

/-- `RD off` (R97): the word is recorded and the block is as it was. -/
theorem Reached.rd {s u t : State} {off : Nat} {rest : List HostInput} (h : Reached s u t ((HostOp.rd off).expand ++ rest))
    (h1 : off < 0x200) (h2 : off % 4 = 0) :
    ∃ w, Reached s u w rest ∧ w.reads = t.readReg (regAt off) (Config.draw t.fresh) :: t.reads := by
  have hs := step_takeInput (State.engineTurn_of_idle h.idle) h.inputs
  have hn : State.refusal { t.tick with inputs := rest } off .w32 = none := by
    rw [State.refusal_eq_none_iff]; exact ⟨h1, h.running, rfl, h2⟩
  simp only [takeInput, hostRead, List.append_eq, List.nil_append, hn] at hs
  refine ⟨_, h.next ((core_run_succ 0 hs).trans (core_run_zero _)) ?_ h.idle h.running rfl rfl, ?_⟩
  · rw [h.block]; rfl
  · cases regAt off <;> rfl

/-- A write of DIN[k] by an idle block (R261). -/
theorem step_writeDin {s : State} {k : Nat} {w : Word} {rest : List HostInput} (hk : k < 16) (hb : s.busy = false)
    (hr : s.inReset = false) (hi : s.inputs = .write (0x040 + 4 * k) .w32 w :: rest) :
    step s = .next { s with din := s.din.set k w, wait := s.wait - 1, inputs := rest } := by
  rw [step_takeInput (State.engineTurn_of_idle hb) hi]
  have hn : State.refusal { s.tick with inputs := rest } (0x040 + 4 * k) .w32 = none := by
    rw [State.refusal_eq_none_iff]; exact ⟨by omega, hr, rfl, by omega⟩
  have hreg : ∀ k : Fin 16, regAt (0x040 + 4 * k.val) = .din k := by decide
  have hreg' : regAt (0x040 + 4 * k) = .din ⟨k, hk⟩ := hreg ⟨k, hk⟩
  simp only [takeInput, hostWrite, hn, hreg', State.writeReg]
  exact if_neg (by simp [hb])

/-- The writes of LOADB from word `k` on. -/
theorem run_writeWords (bs : List Byte) {rest : List HostInput} (n k : Nat) {s : State} (hk : k + n ≤ 16) (hb : s.busy = false)
    (hr : s.inReset = false)
    (hi : s.inputs = (List.range' k n).map (fun k => .write (0x040 + 4 * k) .w32 (packWord bs k)) ++ rest) :
    ∃ w, core.run n s = .next { s with
      din := Vector.ofFn fun j => if k ≤ j.val ∧ j.val < k + n then packWord bs j.val else s.din[j], wait := w, inputs := rest } := by
  induction n generalizing k s with
  | zero =>
    refine ⟨s.wait, ?_⟩
    have hd : (Vector.ofFn fun j : Fin 16 => if k ≤ j.val ∧ j.val < k + 0 then packWord bs j.val else s.din[j]) = s.din := by
      apply Vector.ext
      intro j hj
      rw [Vector.getElem_ofFn, if_neg (by omega)]; rfl
    simp only [List.range'_zero, List.map_nil, List.nil_append] at hi
    rw [hd, ← hi]; rfl
  | succ n ih =>
    rw [List.range'_succ, List.map_cons, List.cons_append] at hi
    have h1 := step_writeDin (by omega) hb hr hi
    obtain ⟨w, h2⟩ := ih (k + 1) (s := { s with
      din := s.din.set k (packWord bs k), wait := s.wait - 1
      inputs := (List.range' (k + 1) n).map (fun k => .write (0x040 + 4 * k) .w32 (packWord bs k)) ++ rest }) (by omega) hb hr rfl
    refine ⟨w, (core_run_succ n h1).trans (h2.trans ?_)⟩
    have hd : (Vector.ofFn fun j : Fin 16 => if k + 1 ≤ j.val ∧ j.val < k + 1 + n then packWord bs j.val
          else (s.din.set k (packWord bs k))[j]) =
        Vector.ofFn fun j : Fin 16 => if k ≤ j.val ∧ j.val < k + (n + 1) then packWord bs j.val else s.din[j] := by
      apply Vector.ext
      intro j hj
      rw [Vector.getElem_ofFn, Vector.getElem_ofFn]
      show (if k + 1 ≤ j ∧ j < k + 1 + n then packWord bs j else (s.din.set k (packWord bs k))[j]) =
        if k ≤ j ∧ j < k + (n + 1) then packWord bs j else s.din[j]
      rw [Vector.getElem_set]
      rcases Nat.lt_trichotomy k j with hlt | rfl | hgt
      · rw [if_neg (by omega : ¬ k = j)]
        exact if_congr (by omega) rfl rfl
      · rw [if_neg (by omega), if_pos rfl, if_pos (by omega)]
      · rw [if_neg (by omega), if_neg (by omega), if_neg (by omega)]
    rw [hd]

/-- `LOADB bs` (R98): DIN holds the packed bytes. -/
theorem Reached.loadb {s u t : State} {bs : List Byte} {rest : List HostInput}
    (h : Reached s u t ((HostOp.loadb bs).expand ++ rest)) (hl : bs.length ≤ 64) : ∃ w, Reached s (u.loadBytes bs) w rest := by
  obtain ⟨w, hw⟩ := run_writeWords bs ((bs.length + 3) / 4) 0 (s := t) (rest := rest) (by omega) h.idle h.running
    (by rw [h.inputs, HostOp.expand, List.range_eq_range'])
  refine ⟨_, h.next hw ?_ h.idle h.running rfl rfl⟩
  rw [h.block]
  simp only [Nat.zero_le, true_and, Nat.zero_add]
  rfl

/-- What `LOADB c; DO SHA_UPDATE |c|` does to the block for each chunk c, in order, leaves all but DIN and the context alone. -/
theorem foldl_update_frame (cs : List (List Byte)) (s : State) :
    let t := cs.foldl (fun s c => performShaUpdate (BitVec.ofNat 7 c.length) (s.loadBytes c)) s
    t = { s with din := t.din, h := t.h, buf := t.buf, bufcnt := t.bufcnt, bitlen := t.bitlen } := by
  induction cs generalizing s with
  | nil => rfl
  | cons c cs ih =>
    have h := ih (performShaUpdate (BitVec.ofNat 7 c.length) (s.loadBytes c))
    rw [List.foldl_cons]
    generalize cs.foldl _ (performShaUpdate (BitVec.ofNat 7 c.length) (s.loadBytes c)) = t at h ⊢
    rw [performShaUpdate, State.absorb_frame] at h
    exact h

/-- The updates of a message in a run, in an open context (R139). -/
theorem Reached.updates (hd : ∀ i : Instr, i.wellFormed = true → decode (encode i) = .ok i)
    {cs : List (List Byte)} {s u t : State} {rest : List HostInput} (hc : ∀ c ∈ cs, c.length ≤ 64) (ha : u.shaState = .active)
    (h : Reached s u t ((updateChunks cs).flatMap HostOp.expand ++ rest)) :
    ∃ w, Reached s (cs.foldl (fun s c => performShaUpdate (BitVec.ofNat 7 c.length) (s.loadBytes c)) u) w rest := by
  induction cs generalizing u t with
  | nil => exact ⟨t, h⟩
  | cons c cs ih =>
    have hl := hc c (by simp)
    obtain ⟨w, h1⟩ := Reached.loadb (bs := c)
      (rest := (HostOp.doCmd (.shaUpdate (BitVec.ofNat 7 c.length))).expand ++
        ((updateChunks cs).flatMap HostOp.expand ++ rest)) (by simpa [updateChunks] using h) hl
    have hlen : (BitVec.ofNat 7 c.length).toNat = c.length := by rw [BitVec.toNat_ofNat]; omega
    have hw : (Instr.shaUpdate (BitVec.ofNat 7 c.length)).wellFormed = true := by simp [Instr.wellFormed, hlen, hl]
    obtain ⟨w, h2⟩ := h1.doCmd (by simp) (hd _ hw) hw (by simp [State.seqOK, State.loadBytes, ha])
    refine ih (fun c h => hc c (by simp [h])) ?_ h2
    show (State.absorb _ _).shaState = _
    rw [State.absorb_frame]; exact ha

/-- `RD DIGEST[0..7]` (R139): the eight newest words read are DIGEST, the last word first. -/
theorem Reached.rdDigest {s u t : State} (h : Reached s u t (readDigest.flatMap HostOp.expand)) :
    ∃ w, Reached s u w [] ∧ w.reads.take 8 = u.digest.toList.reverse := by
  have one {v : State} {rest : List HostInput} (i : Fin 8)
      (h : Reached s u v ((HostOp.rd (0x080 + 4 * i.val)).expand ++ rest)) :
      ∃ w, Reached s u w rest ∧ w.reads = u.digest[i] :: v.reads := by
    obtain ⟨w, h1, h2⟩ := h.rd (by omega) (by omega)
    have hreg : ∀ i : Fin 8, regAt (0x080 + 4 * i.val) = .digest i := by decide
    refine ⟨w, h1, h2.trans ?_⟩
    rw [hreg, State.readReg, h.idle, h.block]; rfl
  obtain ⟨_, h, h0⟩ := one (rest := (readDigest.drop 1).flatMap HostOp.expand) 0 h
  obtain ⟨_, h, h1⟩ := one (rest := (readDigest.drop 2).flatMap HostOp.expand) 1 h
  obtain ⟨_, h, h2⟩ := one (rest := (readDigest.drop 3).flatMap HostOp.expand) 2 h
  obtain ⟨_, h, h3⟩ := one (rest := (readDigest.drop 4).flatMap HostOp.expand) 3 h
  obtain ⟨_, h, h4⟩ := one (rest := (readDigest.drop 5).flatMap HostOp.expand) 4 h
  obtain ⟨_, h, h5⟩ := one (rest := (readDigest.drop 6).flatMap HostOp.expand) 5 h
  obtain ⟨_, h, h6⟩ := one (rest := (readDigest.drop 7).flatMap HostOp.expand) 6 h
  obtain ⟨w, h, h7⟩ := one (rest := []) 7 h
  refine ⟨w, h, ?_⟩
  rw [h7, h6, h5, h4, h3, h2, h1, h0]
  have hd (v : Vector Word 8) : v.toList = [v[0], v[1], v[2], v[3], v[4], v[5], v[6], v[7]] := by
    apply List.ext_getElem
    · simp
    · intro i h1 h2
      have h : i < 8 := by simpa using h1
      have key : ∀ i : Fin 8, v.toList[i.val]'(by simp) =
          [v[0], v[1], v[2], v[3], v[4], v[5], v[6], v[7]][i.val]'(by simp) := by
        simp [Fin.forall_fin_succ]
      exact key ⟨i, h⟩
  rw [hd]; rfl

/-- A write of RK[i] by an idle block (R261). -/
theorem Reached.wrRk {s u t : State} {i : Fin 44} {v : Word} {rest : List HostInput}
    (h : Reached s u t ((HostOp.wr (0x100 + 4 * i.val) v).expand ++ rest)) :
    ∃ w, Reached s { u with rk := u.rk.set i v } w rest := by
  have hs := step_takeInput (State.engineTurn_of_idle h.idle) h.inputs
  have hn : State.refusal { t.tick with inputs := rest } (0x100 + 4 * i.val) .w32 = none := by
    rw [State.refusal_eq_none_iff]; exact ⟨by omega, h.running, rfl, by omega⟩
  have hreg : ∀ i : Fin 44, regAt (0x100 + 4 * i.val) = .rk i := by decide
  simp only [takeInput, hostWrite, List.append_eq, List.nil_append, hn, hreg, State.writeReg] at hs
  rw [if_neg (by simp [h.idle])] at hs
  refine ⟨_, h.next ((core_run_succ 0 hs).trans (core_run_zero _)) ?_ h.idle h.running rfl rfl⟩
  rw [h.block]; rfl

/-- The load of a schedule (R99, R228): RK holds it, and nothing else of the block changes. -/
theorem Reached.writeRk {s u t : State} {roundKeys : Vector Word 44} {rest : List HostInput}
    (h : Reached s u t ((Machine.writeRk roundKeys).flatMap HostOp.expand ++ rest)) :
    ∃ w, Reached s { u with rk := roundKeys } w rest := by
  have some (is : List (Fin 44)) : ∀ {u t : State}, Reached s u t
      ((is.map fun i => HostOp.wr (0x100 + 4 * i.val) roundKeys[i]).flatMap HostOp.expand ++ rest) →
      ∃ w rk, Reached s { u with rk := rk } w rest ∧
        ∀ j : Fin 44, (j ∈ is ∨ u.rk[j] = roundKeys[j]) → rk[j] = roundKeys[j] := by
    induction is with
    | nil => exact fun h => ⟨_, _, h, fun j hj => hj.resolve_left List.not_mem_nil⟩
    | cons i is ih =>
      intro u t h
      obtain ⟨_, h⟩ := Reached.wrRk (i := i) h
      obtain ⟨w, rk, h, hrk⟩ := ih h
      refine ⟨w, rk, h, fun j hj => hrk j ?_⟩
      by_cases he : i = j
      · subst he; exact .inr (by simp)
      · refine hj.imp (fun hm => (List.mem_cons.mp hm).resolve_left (Ne.symm he)) fun hu => ?_
        have hne : i.val ≠ j.val := fun hv => he (Fin.ext hv)
        simpa [Vector.getElem_set_ne, hne] using hu
  obtain ⟨w, rk, h, hrk⟩ := some _ h
  have he : rk = roundKeys := Vector.ext fun j hj => hrk ⟨j, hj⟩ (.inl (List.mem_finRange _))
  exact ⟨w, he ▸ h⟩

/-- `aes128_encrypt_block` (R99, R231) up to its reads, whether or not its schedule was in RK before: RK holds the schedule, and
AES_ENC has been performed on the block under it. -/
theorem Reached.aesEncrypt {s u t : State} {roundKeys : Vector Word 44} {bs : List Byte}
    (h : Reached s u t ((aesEncryptProgram u.rk roundKeys bs).flatMap HostOp.expand)) (hl : bs.length ≤ 64) :
    ∃ w, Reached s (perform .aesEnc ({ u with rk := roundKeys }.loadBytes bs)) w (readAesout.flatMap HostOp.expand) := by
  rw [aesEncryptProgram, List.flatMap_append] at h
  have hk : ∃ w, Reached s { u with rk := roundKeys } w
      ((HostOp.loadb bs :: .doCmd .aesEnc :: readAesout).flatMap HostOp.expand) := by
    split at h
    · next he => exact ⟨t, he ▸ h⟩
    · exact h.writeRk
  obtain ⟨_, h⟩ := hk
  obtain ⟨_, h⟩ := Reached.loadb (bs := bs) (rest := (HostOp.doCmd .aesEnc).expand ++ readAesout.flatMap HostOp.expand) h hl
  exact h.doCmd (by simp) rfl rfl rfl

end Sys2Proof.Machine
end

