-- ==== Sys2Proof/Tests/Slice0.lean ====
section
/-! SUPPORT. Tests: what the decoder accepts and refuses, one step per test against a value of the spec (95_test_vectors.md and the
examples of the rules), and for every statement of Certificates/Slice0/Obligations.lean a witness that its hypotheses can be met. -/

namespace Sys2Proof.Tests

-- One theorem at a time: each waits for the kernel, and many waiting at once take a stack each.
set_option Elab.async false

open Sys2Proof.Machine

/-! ## Small states -/

/-- The reset state, with LAT = 0 for the next two acceptances. -/
def idle : State := { State.reset with latencies := [0, 0] }

/-- An open context with nothing absorbed (R131). -/
def active : State := { performShaInit idle with latencies := [0, 0] }

/-- An open HMAC inner pass under the empty key (R186). -/
def inner : State := { performHmacStart idle with latencies := [0, 0] }

/-- A finished context: the digest of the empty message (R138). -/
def final : State := { performShaFinal active with latencies := [0, 0] }

/-- SHA_INIT pending in the reset state, with two steps still to pass. -/
def pending : State := { State.reset with busy := true, pend := some .shaInit, wait := 2 }

/-- A state whose first words of DIN are `ws`. -/
def withDin (s : State) (ws : List Word) : State :=
  { s with din := Vector.ofFn fun i => ws.getD i.val 0 }

/-- The bytes of a short text. -/
def text (t : String) : List Byte := t.toList.map fun c => BitVec.ofNat 8 c.toNat

/-- A field of the state a step answers, if it answers one. -/
def after {α : Type} (r : Result) (f : State → α) : Option α :=
  match r with
  | .next t => some (f t)
  | .fault _ => none
  | .refused _ => none

/-- The STATUS word of a state as a read returns it when BUSY = 0 (R260). -/
def status (s : State) : Word := s.statusWord 0

/-! ## Well-formedness and decoding -/

/-- R91: LEN 0 and 64 are legal, 65 and 127 are not, in either command that has LEN. -/
theorem test_wellFormed_len :
    (Instr.shaUpdate 65).wellFormed = false ∧ (Instr.hmacKey 65).wellFormed = false ∧
    (Instr.shaUpdate 127).wellFormed = false ∧ (Instr.hmacKey 127).wellFormed = false ∧
    (Instr.shaUpdate 64).wellFormed = true ∧ (Instr.hmacKey 64).wellFormed = true ∧
    (Instr.shaUpdate 0).wellFormed = true ∧ (Instr.hmacKey 0).wellFormed = true := by decide

/-- R91, R96: the encoded ill-formed terms are refused by name. -/
theorem test_decode_illFormed :
    decode (encode (.shaUpdate 65)) = .error .argument ∧ decode (encode (.hmacKey 65)) = .error .argument ∧
    decode (encode (.shaUpdate 127)) = .error .argument := by decide

/-- An ill-formed term given to `exec` is turned away as ERR_ARG (R286), with no other effect. -/
theorem test_exec_illFormed :
    exec (.shaUpdate 65) active = .next (active.reject .arg) ∧ exec (.hmacKey 65) idle = .next (idle.reject .arg) := ⟨rfl, rfl⟩

-- Each constructor from its word, written as RSV, LEN and OP bit by bit (R90, R93).
theorem test_decode_nop : decode (0b00000000000000000#17 ++ 0b0000000#7 ++ 0b00000000#8) = .ok .nop := by decide
theorem test_decode_shaInit : decode (0b00000000000000000#17 ++ 0b0000000#7 ++ 0b00000001#8) = .ok .shaInit := by decide
theorem test_decode_shaUpdate :
    decode (0b00000000000000000#17 ++ 0b0000011#7 ++ 0b00000010#8) = .ok (.shaUpdate 3) ∧
    decode (0b00000000000000000#17 ++ 0b1000000#7 ++ 0b00000010#8) = .ok (.shaUpdate 64) := by decide
theorem test_decode_shaFinal : decode (0b00000000000000000#17 ++ 0b0000000#7 ++ 0b00000011#8) = .ok .shaFinal := by decide
theorem test_decode_hmacKey :
    decode (0b00000000000000000#17 ++ 0b0010100#7 ++ 0b00010000#8) = .ok (.hmacKey 20) ∧
    decode (0b00000000000000000#17 ++ 0b0000000#7 ++ 0b00010000#8) = .ok (.hmacKey 0) := by decide
theorem test_decode_hmacKeyDigest :
    decode (0b00000000000000000#17 ++ 0b0000000#7 ++ 0b00010001#8) = .ok .hmacKeyDigest := by decide
theorem test_decode_hmacStart : decode (0b00000000000000000#17 ++ 0b0000000#7 ++ 0b00010010#8) = .ok .hmacStart := by decide
theorem test_decode_hmacFinish : decode (0b00000000000000000#17 ++ 0b0000000#7 ++ 0b00010011#8) = .ok .hmacFinish := by decide
theorem test_decode_aesKeyexp : decode (0b00000000000000000#17 ++ 0b0000000#7 ++ 0b00100000#8) = .ok .aesKeyexp := by decide
theorem test_decode_aesEnc : decode (0b00000000000000000#17 ++ 0b0000000#7 ++ 0b00100001#8) = .ok .aesEnc := by decide
theorem test_decode_aesDec : decode (0b00000000000000000#17 ++ 0b0000000#7 ++ 0b00100010#8) = .ok .aesDec := by decide
theorem test_decode_clrErr : decode (0b00000000000000000#17 ++ 0b0000000#7 ++ 0b00110000#8) = .ok .clrErr := by decide

/-- R94: the undefined opcodes beside each group are refused, whatever the other bits (V-CTL-1). -/
theorem test_decode_undefined :
    decode 0x00000004 = .error .opcode ∧ decode 0x0000000f = .error .opcode ∧ decode 0x00000014 = .error .opcode ∧
    decode 0x00000023 = .error .opcode ∧ decode 0x00000031 = .error .opcode ∧ decode 0xffffffff = .error .opcode := by decide

/-- R92: the lowest and the highest reserved bit of each form is refused. -/
theorem test_decode_reserved :
    decode 0x00008002 = .error .argument ∧ decode 0x80000002 = .error .argument ∧
    decode 0x00000101 = .error .argument ∧ decode 0x80000030 = .error .argument := by decide

/-- The table's own words through the host's two hooks. -/
theorem test_decodeTableWord :
    decodeTableWord 32 0x00000002 = some (.shaUpdate 0) ∧ decodeTableWord 8 0x30 = some .clrErr ∧
    decodeTableWord 32 0x00000104 = none ∧ decodeTableWord 64 0 = none := by decide

/-- R97: `CMD SHA_UPDATE 3` writes 0x00000302. -/
theorem test_encode_example : encode (.shaUpdate 3) = 0x00000302 ∧ encode (.hmacKey 20) = 0x00001410 := by decide

/-! ## One step of each command -/

/-- R263: from reset, NOP leaves STATUS = 0. -/
theorem test_nop : after (exec .nop idle) status = some 0x00000000 := by decide +kernel

/-- R136: SHA_INIT leaves STATUS = 2. -/
theorem test_shaInit : after (exec .shaInit idle) status = some 0x00000002 := by decide +kernel

/-- V-HMAC-10 step 10: SHA_INIT aborts an open inner pass, with ERR left as it was. -/
theorem test_shaInit_aborts : after (exec .shaInit { inner with err := 4 }) status = some 0x00040002 := by decide +kernel

/-- R137: "abc" gives STATUS = 0x302 and BITLEN = 0x18; the last byte of DIN[0] is ignored. -/
theorem test_shaUpdate :
    after (exec (.shaUpdate 3) (withDin active [0x616263ff])) (fun t => (status t, t.bitlen, t.h == iv)) =
      some (0x00000302, 0x18, true) := by decide +kernel

/-- R137, V-SHA-4: LEN = 64 on an empty buffer compresses DIN as one block of zeros. -/
theorem test_shaUpdate_block :
    after (exec (.shaUpdate 64) active) (fun t => (status t, t.bitlen, t.h)) =
      some (0x00000002, 0x200, #v[0xda5698be, 0x17b9b469, 0x62335799, 0x779fbeca, 0x8ce5d491, 0xc0d26243, 0xbafef9ea, 0x1837a9d8]) := by
  decide +kernel

/-- R138: the digest of the empty message. -/
theorem test_shaFinal :
    after (exec .shaFinal active) (fun t => (status t, t.digest)) =
      some (0x00000004, #v[0xe3b0c442, 0x98fc1c14, 0x9afbf4c8, 0x996fb924, 0x27ae41e4, 0x649b934c, 0xa495991b, 0x7852b855]) := by
  decide +kernel

/-- V-SHA-6, n = 56: the padding takes two blocks. -/
theorem test_shaFinal_twoBlocks :
    after (exec .shaFinal (active.absorb (List.replicate 56 0x61))) (fun t => t.digest) =
      some #v[0xb35439a4, 0xac6f0948, 0xb6d6f9e3, 0xc6af0f5f, 0x590ce20f, 0x1bde7090, 0xef797068, 0x6ec6738a] := by
  decide +kernel

/-- R184: key 0x0b × 20; the bytes of DIN beyond LEN are ignored. -/
theorem test_hmacKey :
    after (exec (.hmacKey 18) (withDin idle (List.replicate 16 0x0b0b0b0b))) (fun t => t.k0.toList) =
      some (List.replicate 18 0x0b ++ List.replicate 46 0) := by decide +kernel

/-- V-HMAC-10 step 9: the digest becomes the key block. -/
theorem test_hmacKeyDigest :
    after (exec .hmacKeyDigest { final with digest := #v[0xb613679a, 0, 0, 0, 0, 0, 0, 0x4292c5ad] }) (fun t => t.k0.toList) =
      some ([0xb6, 0x13, 0x67, 0x9a] ++ List.replicate 24 0 ++ [0x42, 0x92, 0xc5, 0xad] ++ List.replicate 32 0) := by
  decide +kernel

/-- R186: with the empty key, STATUS = 0x0A and BITLEN = 0x200. -/
theorem test_hmacStart : after (exec .hmacStart idle) (fun t => (status t, t.bitlen)) = some (0x0000000a, 0x200) := by
  decide +kernel

/-- V-HMAC-10 step 8: the tag of the empty message under the empty key, and K0 cleared. -/
theorem test_hmacFinish :
    after (exec .hmacFinish inner) (fun t => (status t, t.bitlen, t.digest)) =
      some (0x00000004, 0x300,
        #v[0xb613679a, 0x0814d9ec, 0x772f95d7, 0x78c35fc5, 0xff1697c4, 0x93715653, 0xc6c71214, 0x4292c5ad]) := by
  decide +kernel

/-- V-HMAC-2: key 0x0b × 20, message "Hi There"; K0 is zero afterwards. -/
theorem test_hmacFinish_message :
    after (exec .hmacFinish (((performHmacStart { idle with k0 := keyBlock 20 (List.replicate 20 0x0b) }).absorb (text "Hi There"))))
        (fun t => (t.digest, t.k0.toList)) =
      some (#v[0xb0344c61, 0xd8db3853, 0x5ca8afce, 0xaf0bf12b, 0x881dc200, 0xc9833da7, 0x26e9376c, 0x2e32cff7],
        List.replicate 64 0) := by decide +kernel

/-- R230: the example key. -/
theorem test_aesKeyexp :
    after (exec .aesKeyexp (withDin idle [0x00010203, 0x04050607, 0x08090a0b, 0x0c0d0e0f]))
        (fun t => (t.rk.toList.take 8, t.rk.toList.drop 40)) =
      some ([0x00010203, 0x04050607, 0x08090a0b, 0x0c0d0e0f, 0xd6aa74fd, 0xd2af72fa, 0xdaa678f1, 0xd6ab76fe],
        [0x13111d7f, 0xe3944a17, 0xf307a78b, 0x4d2b30c5]) := by decide +kernel

/-- V-AES-6: the key 2b7e1516 … 09cf4f3c, round keys 7 and 10. -/
theorem test_aesKeyexp_fips :
    after (exec .aesKeyexp (withDin idle [0x2b7e1516, 0x28aed2a6, 0xabf71588, 0x09cf4f3c]))
        (fun t => ((t.rk.toList.drop 28).take 4, t.rk.toList.drop 40)) =
      some ([0x4e54f70e, 0x5f5fc9f3, 0x84a64fb2, 0x4ea6dc4f], [0xd014f9a8, 0xc9ee2589, 0xe13f0cc8, 0xb6630ca6]) := by
  decide +kernel

/-- R231 (§8): the known answer under the key 000102…0f. -/
theorem test_aesEnc :
    after (exec .aesEnc { withDin idle [0x00112233, 0x44556677, 0x8899aabb, 0xccddeeff] with
        rk := keyExpansion #v[0x00010203, 0x04050607, 0x08090a0b, 0x0c0d0e0f] }) (fun t => t.aesout) =
      some #v[0x69c4e0d8, 0x6a7b0430, 0xd8cdb780, 0x70b4c55a] := by decide +kernel

/-- R231: the zero schedule after reset encrypts zero to 36363636 × 4. -/
theorem test_aesEnc_reset :
    after (exec .aesEnc idle) (fun t => t.aesout) = some #v[0x36363636, 0x36363636, 0x36363636, 0x36363636] := by decide +kernel

/-- R232: the example, backwards. -/
theorem test_aesDec :
    after (exec .aesDec { withDin idle [0x69c4e0d8, 0x6a7b0430, 0xd8cdb780, 0x70b4c55a] with
        rk := keyExpansion #v[0x00010203, 0x04050607, 0x08090a0b, 0x0c0d0e0f] }) (fun t => t.aesout) =
      some #v[0x00112233, 0x44556677, 0x8899aabb, 0xccddeeff] := by decide +kernel

/-- R232: the zero schedule decrypts zero to 6a6a6a6a × 4. -/
theorem test_aesDec_reset :
    after (exec .aesDec idle) (fun t => t.aesout) = some #v[0x6a6a6a6a, 0x6a6a6a6a, 0x6a6a6a6a, 0x6a6a6a6a] := by decide +kernel

/-- R264, V-CTL-3: CLR_ERR is accepted while BUSY = 1 and leaves what is pending. -/
theorem test_clrErr :
    after (exec .clrErr { pending with err := 1 }) (fun t => (t.err, t.busy, t.pend)) = some (0, true, some .shaInit) := by decide

/-! ## The pieces of the algorithms -/

/-- V-SHA-1, the row of 12345678, and σ of all ones. -/
theorem test_sigma :
    rotr 1 0x12345678 = 0x091a2b3c ∧ bigSigma0 0x12345678 = 0x66146474 ∧ bigSigma1 0x12345678 = 0x3561abda ∧
    smallSigma0 0x12345678 = 0xe7fce6ee ∧ smallSigma1 0x12345678 = 0xa1f78649 ∧
    smallSigma0 0xffffffff = 0x1fffffff ∧ smallSigma1 0xffffffff = 0x003fffff := by decide

/-- V-SHA-1: Ch and Maj. -/
theorem test_chMaj :
    ch 0xff00ff00 0x12345678 0x9abcdef0 = 0x12bc56f0 ∧ maj 0xff00ff00 0x0ff00ff0 0x00ffff00 = 0x0ff0ff00 := by decide

/-- V-SHA-2: W16, W23 and W63 of the "abc" block. -/
theorem test_schedule :
    let w := schedule (blockOf ([0x61, 0x62, 0x63, 0x80] ++ List.replicate 59 0 ++ [0x18]))
    (w.getD 16 0, w.getD 23 0, w.getD 63 0) = (0x61626380, 0xe2e2c38e, 0x12b1edeb) := by decide +kernel

/-- V-SHA-4: the zero block from the zero chaining value. -/
theorem test_compress_zero :
    compress (Vector.replicate 8 0) (Vector.replicate 64 0) =
      #v[0x7ca51614, 0x425c3ba8, 0xce54dd2f, 0xc2020ae7, 0xb6e574d1, 0x98136d0f, 0xae7e26cc, 0xbf0be7a6] := by decide +kernel

/-- R133: the 64-bit length lies in the last eight bytes, most significant first. -/
theorem test_padding :
    padding 3 0x18 = 0x80 :: List.replicate 52 0 ++ [0, 0, 0, 0, 0, 0, 0, 0x18] ∧
    (padding 56 0).length = 72 ∧ beBytes64 0x0102030405060708 = [1, 2, 3, 4, 5, 6, 7, 8] := by decide +kernel

/-- V-AES-1. -/
theorem test_field :
    xtime 0x57 = 0xae ∧ xtime 0xae = 0x47 ∧ xtime 0x8e = 0x07 ∧ gmul 0x57 0x13 = 0xfe ∧ gmul 0x57 0x83 = 0xc1 := by decide

/-- V-AES-2. -/
theorem test_sboxes :
    sbox 0x00 = 0x63 ∧ sbox 0x53 = 0xed ∧ sbox 0x7f = 0xd2 ∧ sbox 0xff = 0x16 ∧ invSbox 0x63 = 0x00 ∧ invSbox 0xff = 0x7d := by
  decide +kernel

/-- V-AES-3. -/
theorem test_shiftRows :
    let s := loadBlock #v[0x00102030, 0x01112131, 0x02122232, 0x03132333]
    unloadBlock (shiftRows s) = #v[0x00112233, 0x01122330, 0x02132031, 0x03102132] ∧
    unloadBlock (invShiftRows s) = #v[0x00132231, 0x01102332, 0x02112033, 0x03122130] := by decide +kernel

/-- V-AES-4. -/
theorem test_mixColumn :
    (mixColumn (columnOf 0xdb135345)).word = 0x8e4da1bc ∧ (invMixColumn (columnOf 0x8e4da1bc)).word = 0xdb135345 ∧
    (mixColumn (columnOf 0xd4d4d4d5)).word = 0xd5d5d7d6 := by decide +kernel

/-- V-AES-7: round 1 of the known answer, up to its AddRoundKey. -/
theorem test_round :
    unloadBlock (fullRound (keyExpansion #v[0x00010203, 0x04050607, 0x08090a0b, 0x0c0d0e0f])
        (loadBlock #v[0x00102030, 0x40506070, 0x8090a0b0, 0xc0d0e0f0]) 1) =
      #v[0x89d810e8, 0x855ace68, 0x2d1843d8, 0xcb128fe4] := by decide +kernel

/-- R215: RotWord and SubWord of V-AES-6, step i = 4. -/
theorem test_keyWord : rotWord 0x09cf4f3c = 0xcf4f3c09 ∧ subWord 0xcf4f3c09 = 0x8a84eb01 := by decide +kernel

/-! ## The bus, the busy interval and reset -/

/-- V-CTL-2: what reset reads as. -/
theorem test_reads :
    after (hostRead 0x000 .w32 idle) (fun t => t.reads) = some [0x436f3137] ∧
    after (hostRead 0x004 .w32 idle) (fun t => t.reads) = some [0] ∧
    after (hostRead 0x014 .w32 idle) (fun t => t.reads) = some [0] ∧
    after (hostRead 0x1fc .w32 idle) (fun t => t.reads) = some [0] := by decide +kernel

/-- V-CTL-2: RK[43] is at 0x1AC; ID and the reserved offsets ignore writes. -/
theorem test_writes :
    after (hostWrite 0x1ac .w32 0xcafef00d idle) (fun t => t.rk[43]) = some 0xcafef00d ∧
    hostWrite 0x000 .w32 0xffffffff idle = .next idle ∧ hostWrite 0x014 .w32 0xffffffff idle = .next idle := by
  refine ⟨by decide +kernel, rfl, rfl⟩

/-- R288: sub-word and misaligned accesses. -/
theorem test_busFaults :
    hostRead 0x041 .w32 idle = .fault (.busFault .misaligned 0x041) ∧
    hostWrite 0x040 .w8 0 idle = .fault (.busFault .subWordAccess 0x040) := ⟨rfl, rfl⟩

/-- V-CTL-3: while a command is pending, a DIN write is dropped with ERR_BUSY, and STATUS shows BUSY and ERR. -/
theorem test_busy :
    after (hostWrite 0x040 .w32 0xffffffff pending) (fun t => (t.err, t.din[0], t.pend)) = some (1, 0, some .shaInit) ∧
    ({ pending with err := 1 } : State).statusWord 0 = 0x00010001 ∧
    ({ pending with err := 1 } : State).statusWord 0xffffffff = 0x00013f0f := by decide +kernel

/-- R262: the engine's own step performs what is pending. -/
theorem test_engine :
    after (step { pending with wait := 0 }) (fun t => (status t, t.pend)) = some (0x00000002, none) := by decide +kernel

/-- R311: reset abandons the pending command, and the host sees STATUS = 0. -/
theorem test_reset :
    after (step { pending with inputs := [.assertReset] }) (fun t => (t.busy, t.inReset)) = some (false, true) ∧
    after (step { active with inReset := true, inputs := [.releaseReset] }) (fun t => (status t, t.h[0])) = some (0, 0) := by
  decide +kernel

/-- R98: LOADB packs five bytes into two words. -/
theorem test_loadb :
    (HostOp.loadb [1, 2, 3, 4, 5]).expand = [.write 0x040 .w32 0x01020304, .write 0x044 .w32 0x05000000] := by decide

/-- R99, R61: `aes128_encrypt_block` writes RK[0] at 0x100 to RK[43] at 0x1AC before its block, and nothing to RK where the schedule
is already there. -/
theorem test_aesEncryptProgram :
    let keys : Vector Word 44 := (Vector.replicate 44 0).set 43 0x01020304
    let rest : List HostInput := [.write 0x040 .w32 0x05000000, .write 0x004 .w32 0x00000021, .poll,
      .read 0x0A0 .w32, .read 0x0A4 .w32, .read 0x0A8 .w32, .read 0x0AC .w32]
    let written := (aesEncryptProgram (Vector.replicate 44 0) keys [5]).flatMap HostOp.expand
    written.length = 44 + rest.length ∧ written[0]? = some (.write 0x100 .w32 0) ∧
    written[43]? = some (.write 0x1AC .w32 0x01020304) ∧ written.drop 44 = rest ∧
    (aesEncryptProgram keys keys [5]).flatMap HostOp.expand = rest := by decide +kernel

/-! ## The hypotheses of the statements can be met

One witness per statement that has hypotheses, one conjunct per clause, at the ends of the ranges. -/

theorem test_witness_DecodeEncodeRoundTrip :
    (Instr.shaUpdate 64).wellFormed = true ∧ (Instr.hmacKey 0).wellFormed = true ∧ Instr.clrErr.wellFormed = true := by decide

theorem test_witness_EncodeDecodeRoundTrip :
    decode 0x00004010 = .ok (.hmacKey 64) ∧ decode 0x00000022 = .ok .aesDec := by decide

/-- Not known: 0x04; known with a bad argument: LEN 65, bit 15, bit 8; known and good: LEN 64, and a plain command; a busy block. -/
theorem test_witness_DecodeFollowsTheDecodeRule :
    pending.busy = true ∧ (0x0000002f : Word).toNat % 256 ≠ 0x30 ∧ State.reset.busy = false ∧
    decode 0x00000004 = .error .opcode ∧ decode 0x00004102 = .error .argument ∧ decode 0x00008010 = .error .argument ∧
    decode 0x00000100 = .error .argument ∧ decode 0x00004002 = .ok (.shaUpdate 64) ∧ decode 0x00000000 = .ok .nop := by decide

theorem test_witness_StepRunsTheDecodedCommand :
    let s := { pending with inputs := [.write 0x004 .w32 0x00000030, .poll] }
    s.inReset = false ∧ ¬ (s.busy = true ∧ s.wait = 0) ∧ s.inputs = .write 0x004 .w32 0x00000030 :: [.poll] ∧
    decode 0x00000030 = .ok .clrErr := by decide

theorem test_witness_PlacedWordRunsNext :
    State.reset.busy = false ∧ decodeTableWord 32 0x00000302 = some (.shaUpdate 3) := by decide

theorem test_witness_BusyRejectsCommands :
    pending.busy = true ∧ Instr.aesEnc ≠ .clrErr ∧ (0x00000131 : Word).toNat % 256 ≠ 0x30 := by decide

theorem test_witness_UndefinedOpcodeRejected :
    State.reset.busy = false ∧
    (0xffffff04 : Word).toNat % 256 ∉ [0x00, 0x01, 0x02, 0x03, 0x10, 0x11, 0x12, 0x13, 0x20, 0x21, 0x22, 0x30] := by decide

/-- LEN = 65; bit 15; a plain command with bit 8; CLR_ERR with bit 31 in a busy block. -/
theorem test_witness_BadArgumentRejected :
    State.reset.busy = false ∧ (0x00004102 : Word).toNat / 256 % 128 > 64 ∧ (0x00008010 : Word).toNat / 2 ^ 15 ≠ 0 ∧
    (0x00000101 : Word).toNat / 256 ≠ 0 ∧
    pending.busy = true ∧ (0x80000030 : Word).toNat % 256 = 0x30 ∧ (0x80000030 : Word).toNat / 256 ≠ 0 := by decide

/-- Each condition of R287 met and not met: reset's state (UNINIT, no inner pass), an open inner pass, an open context, FINAL. -/
theorem test_witness_SequenceConditionDecides :
    (State.reset.busy = false ∧ (Instr.shaUpdate 64).wellFormed = true ∧ State.reset.shaState ≠ .active ∧
      State.reset.shaState ≠ .final ∧ State.reset.hmacInner = false) ∧
    (inner.busy = false ∧ (Instr.hmacKey 0).wellFormed = true ∧ inner.hmacInner = true) ∧
    (active.busy = false ∧ Instr.shaFinal.wellFormed = true ∧ active.shaState = .active ∧ active.hmacInner = false) ∧
    (final.busy = false ∧ Instr.hmacKeyDigest.wellFormed = true ∧ final.shaState = .final) := by decide +kernel

theorem test_witness_AcceptedCommandBecomesPending :
    let s := { active with latencies := [3] }
    s.busy = false ∧ Instr.shaUpdate 64 ≠ .clrErr ∧ (Instr.shaUpdate 64).wellFormed = true ∧ s.seqOK (.shaUpdate 64) = true ∧
    s.latencies = (2 + 1) :: [] := by decide +kernel

theorem test_witness_CompletionDoesNotDependOnLatency :
    inner.busy = false ∧ inner.pend = none ∧ inner.wait = 0 ∧ inner.inReset = false ∧ Instr.hmacFinish ≠ .clrErr ∧
    Instr.hmacFinish.wellFormed = true ∧ inner.seqOK .hmacFinish = true ∧ inner.latencies = 0 :: [0] := by decide +kernel

theorem test_witness_PendingCommandCompletes :
    pending.busy = true ∧ pending.pend = some .shaInit ∧ pending.inReset = false ∧ pending.inputs = [] := by decide

/-- Nothing pending; and a command pending. -/
theorem test_witness_PollWaitsForCompletion :
    let s := { State.reset with inputs := [.poll] }
    let t := { pending with inputs := [.poll] }
    (s.inReset = false ∧ s.inputs = .poll :: [] ∧ s.busy = false) ∧
    (t.inReset = false ∧ t.inputs = .poll :: [] ∧ t.busy = true ∧ t.pend = some .shaInit) := by decide

theorem test_witness_ErrWrittenOnlyByRejectionAndClrErr :
    ∃ t, exec .shaFinal State.reset = .next t ∧ t.err = 4 := ⟨_, rfl, rfl⟩

theorem test_witness_ClrErrClearsErr :
    (0x00000130 : Word).toNat % 256 = 0x30 ∧ (0x00000130 : Word).toNat / 256 ≠ 0 := by decide

/-- NopChangesNothing, ShaInitResetsContext, HmacStartAbsorbsInnerPad, AesKeyexpExpandsKey, AesEncEncryptsBlock,
AesDecDecryptsBlock, AesDecReturnsThePlaintext: an idle block with LAT = 0. -/
theorem test_witness_commandsWithoutPrecondition :
    idle.busy = false ∧ idle.latencies = 0 :: [0] ∧ idle.latencies = 0 :: 0 :: [] := by decide

/-- ShaUpdateAbsorbsDin: a buffered sequence shorter than a block, of a block exactly, and of the longest length, 127. -/
theorem test_witness_ShaUpdateAbsorbsDin :
    active.busy = false ∧ (64#7).toNat ≤ 64 ∧ active.shaState = .active ∧ active.latencies = 0 :: [0] ∧
    (active.buf.toList.take active.bufcnt.toNat ++ (bytesOf active.din.toList).take (63#7).toNat).length = 63 ∧
    (active.buf.toList.take active.bufcnt.toNat ++ (bytesOf active.din.toList).take (64#7).toNat).length = 64 ∧
    (let s := { active with bufcnt := 63 }
     (s.buf.toList.take s.bufcnt.toNat ++ (bytesOf s.din.toList).take (64#7).toNat).length = 127) := by decide +kernel

/-- ShaFinalPublishesDigest, at both sides of the padding boundary. -/
theorem test_witness_ShaFinalPublishesDigest :
    (let s := { active with bufcnt := 55 }
     s.busy = false ∧ s.shaState = .active ∧ s.hmacInner = false ∧ s.latencies = 0 :: [0] ∧ s.bufcnt.toNat ≤ 55) ∧
    (let s := { active with bufcnt := 56 }
     s.busy = false ∧ s.shaState = .active ∧ s.hmacInner = false ∧ s.latencies = 0 :: [0] ∧ ¬ s.bufcnt.toNat ≤ 55) := by
  decide +kernel

theorem test_witness_HmacKeyLoadsPaddedKey :
    idle.busy = false ∧ (64#7).toNat ≤ 64 ∧ (0#7).toNat ≤ 64 ∧ idle.hmacInner = false ∧ idle.latencies = 0 :: [0] := by decide

theorem test_witness_HmacKeyDigestLoadsDigest :
    final.busy = false ∧ final.shaState = .final ∧ final.latencies = 0 :: [0] := by decide +kernel

theorem test_witness_HmacFinishPublishesTag :
    inner.busy = false ∧ inner.hmacInner = true ∧ inner.latencies = 0 :: [0] := by decide +kernel

/-- MessageScheduleRecurrence and CompressFollowsTheRounds: the first and the last index of each range; rotations by 1 and 31. -/
theorem test_witness_indices : (16 ≤ 16 ∧ 16 < 64) ∧ (16 ≤ 63 ∧ 63 < 64) ∧ (0 < 1 ∧ 1 < 32) ∧ (0 < 31 ∧ 31 < 32) := by decide

/-- StreamingEquivalence and StreamedHashIsOneShotHash: the chunkings 3 + 2 and 0 + 1 + 4 of one message; the program clause of the
second starts from an idle state, also with a command of another hash done before. -/
theorem test_witness_Streaming :
    let cs : List (List Byte) := [[1, 2, 3], [4, 5]]
    let ds : List (List Byte) := [[], [1], [2, 3, 4, 5]]
    (∀ c ∈ cs, c.length ≤ 64) ∧ (∀ d ∈ ds, d.length ≤ 64) ∧ cs.flatten = ds.flatten ∧ cs.flatten.length < 2 ^ 61 ∧
    (idle.busy = false ∧ idle.inReset = false ∧ idle.inputs = []) ∧
    (active.busy = false ∧ active.inReset = false ∧ active.inputs = []) := by decide +kernel

/-- HmacSequenceIsHmac: a key of 64 bytes, loaded as it is, from a state with no inner pass open, and a key of 65 bytes, hashed,
from one with an inner pass open. -/
theorem test_witness_HmacSequenceIsHmac :
    (let key : List Byte := List.replicate 64 0x6b
     (∀ c ∈ [key], c.length ≤ 64) ∧ (∀ c ∈ [text "msg"], c.length ≤ 64) ∧ [key].flatten = key ∧ key.length < 2 ^ 61 ∧
      [text "msg"].flatten.length < 2 ^ 61 - 64 ∧ key.length ≤ 64) ∧
    (let key : List Byte := List.replicate 65 0x6b
     let ks : List (List Byte) := [List.replicate 64 0x6b, [0x6b]]
     (∀ c ∈ ks, c.length ≤ 64) ∧ ks.flatten = key ∧ key.length < 2 ^ 61 ∧ 64 < key.length) := by
  refine ⟨⟨?_, ?_, rfl, ?_, ?_, ?_⟩, ?_, rfl, ?_, ?_⟩ <;> simp [text]

/-- HmacSequenceIsHmac, the states its program clause starts from. -/
theorem test_witness_HmacSequenceIsHmac_program :
    (idle.busy = false ∧ idle.inReset = false ∧ idle.inputs = [] ∧ idle.hmacInner = false) ∧
    (inner.busy = false ∧ inner.inReset = false ∧ inner.inputs = [] ∧ inner.hmacInner = true) := by decide +kernel

theorem test_witness_SboxIsAffineOfInverse : gmul 0x01 0x01 = 1 ∧ gmul 0x53 0xca = 1 := by decide

theorem test_witness_AesAndHashAreIndependent :
    idle.din = active.din ∧ idle.rk = active.rk ∧ idle.aesout = active.aesout ∧ Instr.hmacStart ≠ .aesKeyexp := by decide +kernel

/-- A command that answers; idle blocks whose next input is a POLL, a write just below DIN and one just above it; and a busy block
that is written to. -/
theorem test_witness_DinChangesOnlyByHostWrites :
    (∃ t, exec .aesEnc pending = .next t) ∧
    (∀ i ∈ [HostInput.poll, .write 0x03C .w32 0x01020304, .write 0x080 .w32 0x01020304],
      let s := { idle with inputs := [i] }
      (∀ off v rest, s.inputs = .write off .w32 v :: rest → ¬ (0x040 ≤ off ∧ off ≤ 0x07C)) ∧
      (∀ rest, s.inputs ≠ .assertReset :: rest ∧ s.inputs ≠ .releaseReset :: rest) ∧ ∃ t, step s = .next t) ∧
    (let s := { pending with inputs := [.write 0x040 .w32 0x01020304] }
     s.busy = true ∧ (∀ rest, s.inputs ≠ .assertReset :: rest ∧ s.inputs ≠ .releaseReset :: rest) ∧ ∃ t, step s = .next t) := by
  refine ⟨⟨_, rfl⟩, ?_, rfl, fun _ => ⟨by simp, by simp⟩, _, rfl⟩
  intro i hi
  simp only [List.mem_cons, List.not_mem_nil, or_false] at hi
  rcases hi with rfl | rfl | rfl
  · exact ⟨fun _ _ _ h => (by cases h), fun _ => ⟨by simp, by simp⟩, _, rfl⟩
  · exact ⟨fun _ _ _ h => (by cases h; decide), fun _ => ⟨by simp, by simp⟩, _, rfl⟩
  · exact ⟨fun _ _ _ h => (by cases h; decide), fun _ => ⟨by simp, by simp⟩, _, rfl⟩

theorem test_witness_DigestChangesOnlyByFinalAndFinish :
    let s := { pending with inputs := [.write 0x004 .w32 0x00000002] }
    s.pend ≠ some .shaFinal ∧ s.pend ≠ some .hmacFinish ∧
    (∀ rest, s.inputs ≠ .write 0x004 .w32 0x00000003 :: rest ∧ s.inputs ≠ .write 0x004 .w32 0x00000013 :: rest ∧
      s.inputs ≠ .assertReset :: rest ∧ s.inputs ≠ .releaseReset :: rest) ∧ ∃ t, step s = .next t :=
  ⟨by decide, by decide, fun _ => ⟨by simp, by simp, by simp, by simp⟩, _, rfl⟩

/-- A block with an open inner pass meets every invariant, and a message update keeps it open. -/
theorem test_witness_KeyBlockFixedDuringInnerPass :
    let s := { State.reset with
      shaState := .active, bitlen := 512, hmacInner := true, latencies := [0], inputs := [.write 0x004 .w32 0x00000802] }
    s.Inv ∧ s.hmacInner = true ∧ ∃ t, step s = .next t ∧ t.hmacInner = true := by
  refine ⟨⟨?_, ?_, ?_, ?_, ?_, ?_, ?_, ?_, ?_, ?_⟩, rfl, _, rfl, ?_⟩
  case refine_8 => intro i h; cases h
  all_goals decide +kernel

theorem test_witness_StepKeepsInvariants : State.reset.Inv ∧ ∃ t, step State.reset = .next t := by
  refine ⟨⟨?_, ?_, ?_, ?_, ?_, ?_, ?_, ?_, ?_, ?_⟩, _, rfl⟩ <;> simp [State.reset]

/-- A pending command and an aligned write still to come. -/
theorem test_witness_SafeStatesNeverStop :
    Safe { pending with inputs := [.write 0x1fc .w32 0, .read 0x000 .w32, .poll] } := by
  refine ⟨⟨?_, ?_, ?_, ?_, ?_, ?_, ?_, ?_, ?_, ?_⟩, rfl, by decide⟩
  case refine_8 => intro i h; cases h; decide
  all_goals decide +kernel

/-- The first and the last word of each part of the map (R61). -/
theorem test_witness_IdleReadsFollowTheMap :
    State.reset.busy = false ∧ State.reset.inReset = false ∧
    (∀ off ∈ [0x000, 0x004, 0x008, 0x00C, 0x010, 0x014, 0x03C, 0x040, 0x07C, 0x080, 0x09C, 0x0A0, 0x0AC, 0x0B0, 0x0FC, 0x100,
      0x1AC, 0x1B0, 0x1FC], off < 0x200 ∧ off % 4 = 0) := by decide

theorem test_witness_BusyReadsDraw :
    pending.busy = true ∧ pending.inReset = false ∧ 0x1AC < 0x200 ∧ 0x1AC % 4 = 0 := by decide

/-- WritesFollowTheMap: idle and busy, at the first and last offset without a register that takes writes; BusyWritesAreDropped. -/
theorem test_witness_WritesFollowTheMap :
    State.reset.busy = false ∧ State.reset.inReset = false ∧ pending.busy = true ∧ pending.inReset = false ∧
    ∀ off ∈ [0x000, 0x008, 0x03C, 0x080, 0x0FC, 0x1B0, 0x1FC], off < 0x200 ∧ off % 4 = 0 ∧
      off ≠ 0x004 ∧ ¬ (0x040 ≤ off ∧ off ≤ 0x07C) ∧ ¬ (0x100 ≤ off ∧ off ≤ 0x1AC) := by decide

/-- Both ends of each reserved range. -/
theorem test_witness_ReservedOffsetsReadZero :
    State.reset.inReset = false ∧ ∀ off ∈ [0x014, 0x03C, 0x0B0, 0x0FC, 0x1B0, 0x1FC],
      off % 4 = 0 ∧ ((0x014 ≤ off ∧ off ≤ 0x03C) ∨ (0x0B0 ≤ off ∧ off ≤ 0x0FC) ∨ (0x1B0 ≤ off ∧ off ≤ 0x1FC)) := by decide

theorem test_witness_MalformedAccessesAreBusFaults :
    State.reset.inReset = false ∧ 0x1FF < 0x200 ∧ Width.w64 ≠ .w32 ∧ 0x1FF % 4 ≠ 0 := by decide

theorem test_witness_WindowIsRelativeToBase : 0x1FF < 0x200 ∧ 0x200 ≤ 0x200 := by decide

/-- LOADB of nothing, of 5 bytes and of 64. -/
theorem test_witness_LoadbPacksBytesIntoDin :
    ∀ n ∈ [0, 5, 64],
      let bs : List Byte := List.replicate n 0xaa
      let s := { State.reset with inputs := (HostOp.loadb bs).expand ++ [HostInput.poll] }
      s.busy = false ∧ s.inReset = false ∧ s.wait = 0 ∧ bs.length ≤ 64 ∧ s.inputs = (HostOp.loadb bs).expand ++ [HostInput.poll] := by
  decide +kernel

/-- Reset asserted over a pending command; released; held. -/
theorem test_witness_ResetAbandonsAndRestores :
    (let s := { pending with inputs := [.assertReset] }
     ¬ (s.busy = true ∧ s.wait = 0) ∧ s.inputs = .assertReset :: []) ∧
    (let s := { State.reset with inReset := true, inputs := [.releaseReset] }
     s.inReset = true ∧ s.inputs = .releaseReset :: []) ∧
    (let s := { State.reset with inReset := true }
     s.inReset = true ∧ s.inputs = [] ∧ 0x1FF < 0x200) := by decide

end Sys2Proof.Tests
end

section
/-! PROOFS, what a step can do: for each operation of the bus and for the step, once, the next states it can answer
(43_control.md R260 to R265, R283), and the fields that a completion step leaves. -/

namespace Sys2Proof.Machine

/-! A completion step leaves BUSY, PEND, ERR, the reset input and the count of steps (R262). -/

@[simp] theorem perform_busy (i : Instr) (s : State) : (perform i s).busy = s.busy :=
  (congrArg State.busy (perform_env i s)).trans rfl
@[simp] theorem perform_pend (i : Instr) (s : State) : (perform i s).pend = s.pend :=
  (congrArg State.pend (perform_env i s)).trans rfl
@[simp] theorem perform_err (i : Instr) (s : State) : (perform i s).err = s.err :=
  (congrArg State.err (perform_env i s)).trans rfl
@[simp] theorem perform_inReset (i : Instr) (s : State) : (perform i s).inReset = s.inReset :=
  (congrArg State.inReset (perform_env i s)).trans rfl
@[simp] theorem perform_wait (i : Instr) (s : State) : (perform i s).wait = s.wait :=
  (congrArg State.wait (perform_env i s)).trans rfl

/-! What each completion step is, as an update of the state (R262). -/

@[simp] theorem perform_nop (s : State) : perform .nop s = s := rfl
@[simp] theorem perform_clrErr (s : State) : perform .clrErr s = s := rfl
@[simp] theorem perform_shaInit (s : State) : perform .shaInit s = { s.ctxInit with hmacInner := false } := rfl
@[simp] theorem perform_shaUpdate (len : BitVec 7) (s : State) :
    perform (.shaUpdate len) s = s.absorb (s.dinBytes len) := rfl
@[simp] theorem perform_shaFinal (s : State) : perform .shaFinal s = s.padFinal.publish := rfl
@[simp] theorem perform_hmacKey (len : BitVec 7) (s : State) :
    perform (.hmacKey len) s = { s with k0 := keyBlock len.toNat (s.dinBytes len) } := rfl
@[simp] theorem perform_hmacKeyDigest (s : State) :
    perform .hmacKeyDigest s = { s with k0 := keyBlock 32 s.digestBytes } := rfl
@[simp] theorem perform_hmacStart (s : State) :
    perform .hmacStart s = { s.ctxInit.absorb (ipad s.k0) with hmacInner := true } := rfl
@[simp] theorem perform_hmacFinish (s : State) :
    perform .hmacFinish s = { (s.padFinal.outerPass (bytesOf s.padFinal.h.toList)).publish with
      hmacInner := false, k0 := Vector.replicate 64 0 } := rfl
@[simp] theorem perform_aesKeyexp (s : State) : perform .aesKeyexp s = { s with rk := keyExpansion s.dinBlock } := rfl
@[simp] theorem perform_aesEnc (s : State) :
    perform .aesEnc s = { s with aesout := unloadBlock (cipher (loadBlock s.dinBlock) s.rk) } := rfl
@[simp] theorem perform_aesDec (s : State) :
    perform .aesDec s = { s with aesout := unloadBlock (invCipher (loadBlock s.dinBlock) s.rk) } := rfl

@[simp] theorem State.outerPass_din (s : State) (inner : List Byte) : (s.outerPass inner).din = s.din := by
  simp [State.outerPass]

/-- No completion step writes DIN (R26). -/
@[simp] theorem perform_din (i : Instr) (s : State) : (perform i s).din = s.din := by
  cases i <;> simp

/-- DIGEST is written by the completion steps of SHA_FINAL and HMAC_FINISH alone (R27). -/
theorem perform_digest {i : Instr} (s : State) (hf : i ≠ .shaFinal) (hh : i ≠ .hmacFinish) :
    (perform i s).digest = s.digest := by
  cases i with
  | shaFinal => exact absurd rfl hf
  | hmacFinish => exact absurd rfl hh
  | _ => simp

/-- What an answered command is: CLR_ERR, a rejection with a code other than ERR_OPCODE, or an acceptance that passed every
check of R283. -/
theorem exec_next {i : Instr} {s t : State} (h : exec i s = .next t) :
    (i = .clrErr ∧ t = { s with err := 0 }) ∨ (∃ c, c ≠ .opcode ∧ t = s.reject c) ∨
    (i ≠ .clrErr ∧ s.busy = false ∧ i.wellFormed = true ∧ s.seqOK i = true ∧ t = s.accept i (perform i)) := by
  by_cases hi : i = .clrErr
  · subst hi; cases h; exact .inl ⟨rfl, rfl⟩
  · rw [exec_eq_issue i s hi] at h
    rcases s.issue_cases i (perform i) with ⟨-, hr⟩ | ⟨-, -, hr⟩ | ⟨-, -, -, hr⟩ | ⟨hb, hw, hq, hr⟩ <;>
      rw [hr] at h <;> cases h
    · exact .inr (.inl ⟨.busy, by decide, rfl⟩)
    · exact .inr (.inl ⟨.arg, by decide, rfl⟩)
    · exact .inr (.inl ⟨.sequence, by decide, rfl⟩)
    · exact .inr (.inr ⟨hi, hb, hw, hq, rfl⟩)

/-- What an answered CMD write is: a rejection, CLR_ERR, or the acceptance of the decoded command. -/
theorem issueCommand_next {v : Word} {s t : State} (h : issueCommand v s = .next t) :
    (∃ c, t = s.reject c) ∨ t = { s with err := 0 } ∨
    (∃ i, decode v = .ok i ∧ i ≠ .clrErr ∧ s.busy = false ∧ i.wellFormed = true ∧ s.seqOK i = true ∧
      t = s.accept i (perform i)) := by
  rcases issueCommand_cases v s with ⟨c, hr⟩ | ⟨i, hd, hr⟩ <;> rw [hr] at h
  · cases h; exact .inl ⟨c, rfl⟩
  · rcases exec_next h with ⟨-, ht⟩ | ⟨c, -, ht⟩ | hacc
    · exact .inr (.inl ht)
    · exact .inl ⟨c, ht⟩
    · exact .inr (.inr ⟨i, hd, hacc⟩)

/-- A write to a data window takes effect while idle and is dropped while busy (R265). -/
theorem State.windowWrite_next {s t u : State}
    (h : (if s.busy then (.next (s.reject .busy) : Result) else .next u) = .next t) :
    (s.busy = false ∧ t = u) ∨ t = s.reject .busy := by
  split at h <;> cases h
  next => exact .inr rfl
  next hb => exact .inl ⟨by simpa using hb, rfl⟩

/-- What an admitted register write is: a CMD write, a write to DIN or RK while idle, a dropped one while busy (R265), or a
write to a register that ignores it (R67). -/
theorem State.writeReg_next {s t : State} {r : Reg} {v : Word} (h : s.writeReg r v = .next t) :
    (r = .cmd ∧ issueCommand v s = .next t) ∨
    (∃ k, r = .din k ∧ s.busy = false ∧ t = { s with din := s.din.set k v }) ∨
    (∃ k : Fin 44, t = { s with rk := s.rk.set k v }) ∨ t = s.reject .busy ∨ t = s := by
  cases r with
  | cmd => exact .inl ⟨rfl, h⟩
  | din k =>
    rcases State.windowWrite_next h with ⟨hb, rfl⟩ | rfl
    · exact .inr (.inl ⟨k, rfl, hb, rfl⟩)
    · exact .inr (.inr (.inr (.inl rfl)))
  | rk k =>
    rcases State.windowWrite_next h with ⟨-, rfl⟩ | rfl
    · exact .inr (.inr (.inl ⟨k, rfl⟩))
    · exact .inr (.inr (.inr (.inl rfl)))
  | _ => cases h; exact .inr (.inr (.inr (.inr rfl)))

/-- What an answered input is: a read or a round of POLL, which records a word; an admitted write; or the reset input. -/
theorem takeInput_next {i : HostInput} {s t : State} (h : takeInput i s = .next t) :
    (∃ w l, t = { s.record w with inputs := l }) ∨
    (∃ off v, i = .write off .w32 v ∧ off % 4 = 0 ∧ s.inReset = false ∧ s.writeReg (regAt off) v = .next t) ∨
    ((i = .assertReset ∨ i = .releaseReset) ∧ ((∃ b, t = { s.resetBlock with inReset := b }) ∨ t = s)) := by
  cases i with
  | read off width => obtain ⟨-, rfl⟩ := hostRead_next h; exact .inl ⟨_, s.inputs, rfl⟩
  | write off width v =>
    obtain ⟨hr, hw⟩ := hostWrite_next h
    obtain ⟨-, hres, rfl, hal⟩ := (s.refusal_eq_none_iff off width).1 hr
    exact .inr (.inl ⟨off, v, rfl, hal, hres, hw⟩)
  | poll =>
    obtain ⟨w, rfl | rfl⟩ := hostPoll_next h
    · exact .inl ⟨w, s.inputs, rfl⟩
    · exact .inl ⟨w, _, rfl⟩
  | assertReset => cases h; exact .inr (.inr ⟨.inl rfl, .inl ⟨true, rfl⟩⟩)
  | releaseReset =>
    unfold takeInput at h
    dsimp only at h
    split at h <;> cases h
    · exact .inr (.inr ⟨.inr rfl, .inl ⟨false, rfl⟩⟩)
    · exact .inr (.inr ⟨.inr rfl, .inr rfl⟩)

/-- The engine's turn: something is busy, its steps have passed, and the block is out of reset. -/
theorem State.engineTurn_iff (s : State) :
    s.engineTurn = true ↔ s.busy = true ∧ s.wait = 0 ∧ s.inReset = false := by
  simp [State.engineTurn, and_assoc]

/-- What an answered step is: the completion of the pending command, the passing of a step, or the next input taken. -/
theorem step_next {s t : State} (h : step s = .next t) :
    (∃ i, s.pend = some i ∧ s.wait = 0 ∧ s.inReset = false ∧ t = (perform i s).clearPending) ∨ t = s.tick ∨
    (∃ i rest, s.inputs = i :: rest ∧ takeInput i { s.tick with inputs := rest } = .next t) := by
  unfold step at h
  rcases transition_cases s with ⟨hturn, hr⟩ | ⟨-, -, hr⟩ | ⟨i, rest, -, hin, hr⟩ <;> rw [hr] at h
  · obtain ⟨-, hwait, hres⟩ := s.engineTurn_iff.1 hturn
    rcases engineStep_cases s with ⟨i, hp, he⟩ | ⟨-, he⟩ <;> rw [he] at h <;> cases h
    exact .inl ⟨i, hp, hwait, hres, rfl⟩
  · cases h; exact .inr (.inl rfl)
  · exact .inr (.inr ⟨i, rest, hin, h⟩)

end Sys2Proof.Machine
end

section
/-! PROOFS, decoding (30_encoding.md R90 to R96): a word that decodes to a command is that command's word. -/

namespace Sys2Proof

/-- A word is its high field followed by its opcode (R90, R92). -/
theorem highField_append_opField (v : Word) : highField v ++ opField v = v := by
  apply BitVec.eq_of_toNat_eq
  rw [Machine.toNat_append_eq]
  simp only [highField, opField, BitVec.extractLsb'_toNat, Nat.shiftRight_eq_div_pow]
  omega

/-- A word is its three fields RSV, LEN and OP (R90). -/
theorem rsvField_append_lenField_append_opField (v : Word) : rsvField v ++ lenField v ++ opField v = v := by
  apply BitVec.eq_of_toNat_eq
  rw [Machine.toNat_append_eq, Machine.toNat_append_eq]
  simp only [rsvField, lenField, opField, BitVec.extractLsb'_toNat, Nat.shiftRight_eq_div_pow]
  omega

/-- A command without operands is the answer only where every bit above OP is zero (R92). -/
theorem decodePlain_ok {v : Word} {i j : Instr} (h : decodePlain v j = .ok i) : j = i ∧ highField v = 0 := by
  unfold decodePlain at h
  split at h
  next hz => cases h; exact ⟨rfl, hz⟩
  next => cases h

/-- A command with LEN is the answer only where RSV is zero, and its LEN is the field (R91, R92). -/
theorem decodeLen_ok {v : Word} {i : Instr} {mk : BitVec 7 → Instr} (h : decodeLen v mk = .ok i) :
    mk (lenField v) = i ∧ rsvField v = 0 := by
  unfold decodeLen at h
  split at h
  next hz => cases h; exact ⟨rfl, hz.1⟩
  next => cases h

/-- A row of the decoder without operands: its command comes from that command's word, if the later rows' do. -/
theorem encode_of_plainRow {v : Word} {i : Instr} (j : Instr) {rows : Except DecodeReject Instr}
    (h : (if opField v = opcode j then decodePlain v j else rows) = .ok i) (hlen : lenOperand j = 0)
    (hrows : rows = .ok i → encode i = v) : encode i = v := by
  split at h
  next hop =>
    obtain ⟨rfl, hz⟩ := decodePlain_ok h
    rw [← highField_append_opField v, hz, hop, encode, hlen]
    rfl
  next => exact hrows h

/-- A row of the decoder with LEN: its command comes from that command's word, if the later rows' do. -/
theorem encode_of_lenRow {v : Word} {i : Instr} (mk : BitVec 7 → Instr) {rows : Except DecodeReject Instr}
    (h : (if opField v = opcode (mk (lenField v)) then decodeLen v mk else rows) = .ok i)
    (hlen : lenOperand (mk (lenField v)) = lenField v) (hrows : rows = .ok i → encode i = v) : encode i = v := by
  split at h
  next hop =>
    obtain ⟨rfl, hz⟩ := decodeLen_ok h
    have hfields := rsvField_append_lenField_append_opField v
    rw [hz] at hfields
    rw [encode, hlen, ← hop]
    exact hfields
  next => exact hrows h

/-- A word that decodes to a command is the word of that command (R95, R96). -/
theorem encode_of_decode {v : Word} {i : Instr} (h : decode v = .ok i) : encode i = v := by
  refine encode_of_plainRow .nop h rfl fun h => ?_
  refine encode_of_plainRow .shaInit h rfl fun h => ?_
  refine encode_of_lenRow .shaUpdate h rfl fun h => ?_
  refine encode_of_plainRow .shaFinal h rfl fun h => ?_
  refine encode_of_lenRow .hmacKey h rfl fun h => ?_
  refine encode_of_plainRow .hmacKeyDigest h rfl fun h => ?_
  refine encode_of_plainRow .hmacStart h rfl fun h => ?_
  refine encode_of_plainRow .hmacFinish h rfl fun h => ?_
  refine encode_of_plainRow .aesKeyexp h rfl fun h => ?_
  refine encode_of_plainRow .aesEnc h rfl fun h => ?_
  refine encode_of_plainRow .aesDec h rfl fun h => ?_
  refine encode_of_plainRow .clrErr h rfl fun h => ?_
  cases h

end Sys2Proof
end

section
/-! PROOFS, what commands and steps change of ERR, DIN and DIGEST (10_state.md R26, R27, R38). -/

namespace Sys2Proof.Machine

/-! Acceptance leaves ERR, DIN, and, unless its command is one that publishes a digest, DIGEST. -/

@[simp] theorem State.accept_err (s : State) (i : Instr) : (s.accept i (perform i)).err = s.err := by
  rcases s.accept_cases i (perform i) with ⟨-, h⟩ | ⟨n, -, h⟩ <;> simp [h]

@[simp] theorem State.accept_din (s : State) (i : Instr) : (s.accept i (perform i)).din = s.din := by
  rcases s.accept_cases i (perform i) with ⟨-, h⟩ | ⟨n, -, h⟩ <;> simp [h]

theorem State.accept_digest (s : State) {i : Instr} (hf : i ≠ .shaFinal) (hh : i ≠ .hmacFinish) :
    (s.accept i (perform i)).digest = s.digest := by
  rcases s.accept_cases i (perform i) with ⟨-, h⟩ | ⟨n, -, h⟩ <;> simp [h, perform_digest _ hf hh]

/-- Settles O16: an answered command is CLR_ERR, a rejection, or an acceptance, and no acceptance writes ERR. -/
theorem errWrittenOnlyByRejectionAndClrErr : Obligations.ErrWrittenOnlyByRejectionAndClrErr := by
  intro i s t h
  rcases exec_next h with ⟨rfl, rfl⟩ | ⟨c, hc, rfl⟩ | ⟨-, -, -, -, rfl⟩
  · exact .inr (.inl ⟨rfl, rfl⟩)
  · refine .inr (.inr ⟨rfl, ?_⟩)
    cases c with
    | opcode => exact absurd rfl hc
    | busy => exact .inl rfl
    | arg => exact .inr (.inl rfl)
    | sequence => exact .inr (.inr rfl)
  · exact .inl (s.accept_err i)

/-- No command changes DIN (R26). -/
theorem exec_din {i : Instr} {s t : State} (h : exec i s = .next t) : t.din = s.din := by
  rcases exec_next h with ⟨-, rfl⟩ | ⟨c, -, rfl⟩ | ⟨-, -, -, -, rfl⟩
  · rfl
  · rfl
  · exact s.accept_din i

/-- The map gives CMD one offset (R61). -/
theorem regAt_eq_cmd {off : Nat} (h : regAt off = .cmd) : off = 0x004 := by
  simp only [regAt, ite_eq_iff, dite_eq_iff, reduceCtorEq, and_false, exists_false, or_false, false_or, and_true] at h
  exact h.2

/-- The map gives DIN the offsets 0x040 .. 0x07F (R61). -/
theorem regAt_eq_din {off : Nat} {k : Fin 16} (h : regAt off = .din k) : 0x040 ≤ off ∧ off < 0x080 := by
  simp only [regAt, ite_eq_iff, dite_eq_iff, reduceCtorEq, and_false, exists_false, or_false, false_or] at h
  obtain ⟨-, -, -, -, -, hdin, -⟩ := h
  exact hdin

/-- No write to CMD changes DIN. -/
theorem issueCommand_din {v : Word} {s t : State} (h : issueCommand v s = .next t) : t.din = s.din := by
  rcases issueCommand_cases v s with ⟨c, hr⟩ | ⟨i, -, hr⟩ <;> rw [hr] at h
  · cases h; rfl
  · exact exec_din h

/-- A step that is not a reset input leaves DIN, unless it is an idle block's write to an offset of DIN (R26, R265). -/
theorem step_din {s t : State} (hreset : ∀ rest, s.inputs ≠ .assertReset :: rest ∧ s.inputs ≠ .releaseReset :: rest)
    (h : step s = .next t) :
    t.din = s.din ∨
    (s.busy = false ∧ ∃ off v rest, s.inputs = .write off .w32 v :: rest ∧ 0x040 ≤ off ∧ off ≤ 0x07C) := by
  rcases step_next h with ⟨i, -, -, -, rfl⟩ | rfl | ⟨i, rest, hin, ht⟩
  · exact .inl (perform_din i s)
  · exact .inl rfl
  · rcases takeInput_next ht with ⟨w, l, rfl⟩ | ⟨off, v, rfl, hal, -, hw⟩ | ⟨rfl | rfl, -⟩
    · exact .inl rfl
    · rcases State.writeReg_next hw with ⟨-, hc⟩ | ⟨k, hk, hb, -⟩ | ⟨k, rfl⟩ | rfl | rfl
      · exact .inl (issueCommand_din hc :)
      · have hoff := regAt_eq_din hk
        exact .inr ⟨hb, off, v, rest, hin, hoff.1, by omega⟩
      · exact .inl rfl
      · exact .inl rfl
      · exact .inl rfl
    · exact absurd hin (hreset rest).1
    · exact absurd hin (hreset rest).2

/-- Settles O45: no command changes DIN, and the one step that does is an idle block's write to DIN. -/
theorem dinChangesOnlyByHostWrites : Obligations.DinChangesOnlyByHostWrites := by
  refine ⟨fun i s t h => exec_din h, fun s t hwrite hreset h => ?_, fun s t hbusy hreset h => ?_⟩
  · rcases step_din hreset h with hd | ⟨-, off, v, rest, hin, hoff⟩
    · exact hd
    · exact absurd hoff (hwrite off v rest hin)
  · rcases step_din hreset h with hd | ⟨hidle, -⟩
    · exact hd
    · rw [hbusy] at hidle; cases hidle

/-- A write to CMD leaves DIGEST, unless its word is the one of SHA_FINAL or HMAC_FINISH (R27, R93). -/
theorem issueCommand_digest {v : Word} {s t : State} (hf : v ≠ 0x00000003) (hh : v ≠ 0x00000013)
    (h : issueCommand v s = .next t) : t.digest = s.digest := by
  rcases issueCommand_next h with ⟨c, rfl⟩ | rfl | ⟨i, hd, -, -, -, -, rfl⟩
  · rfl
  · rfl
  · have hword : encode i = v := encode_of_decode hd
    refine s.accept_digest (fun hi => hf ?_) (fun hi => hh ?_)
    · rw [← hword, hi]; rfl
    · rw [← hword, hi]; rfl

/-- Settles O46: of the completion steps only those of the two commands write DIGEST, and only their words decode to them. -/
theorem digestChangesOnlyByFinalAndFinish : Obligations.DigestChangesOnlyByFinalAndFinish := by
  intro s t hpf hph hin h
  rcases step_next h with ⟨i, hp, -, -, rfl⟩ | rfl | ⟨i, rest, hi, ht⟩
  · exact perform_digest s (fun he => hpf (he ▸ hp)) (fun he => hph (he ▸ hp))
  · rfl
  · obtain ⟨hf, hh, hassert, hrelease⟩ := hin rest
    rcases takeInput_next ht with ⟨w, l, rfl⟩ | ⟨off, v, rfl, -, -, hw⟩ | ⟨rfl | rfl, -⟩
    · rfl
    · rcases State.writeReg_next hw with ⟨hr, hc⟩ | ⟨k, -, -, rfl⟩ | ⟨k, rfl⟩ | rfl | rfl
      · obtain rfl := regAt_eq_cmd hr
        exact (issueCommand_digest (fun hv => hf (hv ▸ hi)) (fun hv => hh (hv ▸ hi)) hc :)
      · rfl
      · rfl
      · rfl
      · rfl
    · exact absurd hi hassert
    · exact absurd hi hrelease

end Sys2Proof.Machine
end

section
/-! PROOFS, the invariants (10_state.md R42): they are those of the hash context and those of the sequencing state; each operation
of a step keeps both. -/

namespace Sys2Proof.Machine

/-! ## The hash context -/

/-- The invariants of R42 that are about the hash context: items 2, 3, 4 and 7. -/
structure State.ContextInv (s : State) : Prop where
  inner_active : s.hmacInner = true → s.shaState = .active
  uninit_empty : s.shaState = .uninit → s.bufcnt = 0 ∧ s.bitlen = 0
  final_empty : s.shaState = .final → s.bufcnt = 0
  bitlen_bufcnt : s.shaState ≠ .final → s.bitlen.toNat % 512 = 8 * s.bufcnt.toNat % 512

theorem State.Inv.context {s : State} (hs : s.Inv) : s.ContextInv :=
  ⟨hs.inner_active, hs.uninit_empty, hs.final_empty, hs.bitlen_bufcnt⟩

/-- The invariants of the hash context depend on four fields alone. -/
theorem State.ContextInv.congr {s t : State} (hs : s.ContextInv)
    (h : t.bufcnt = s.bufcnt ∧ t.bitlen = s.bitlen ∧ t.shaState = s.shaState ∧ t.hmacInner = s.hmacInner) :
    t.ContextInv := by
  obtain ⟨hcnt, hlen, hsha, hinner⟩ := h
  constructor <;> rw [hsha]
  · rw [hinner]; exact hs.inner_active
  · rw [hcnt, hlen]; exact hs.uninit_empty
  · rw [hcnt]; exact hs.final_empty
  · rw [hcnt, hlen]; exact hs.bitlen_bufcnt

theorem State.ContextInv.of_active {s : State} (hsha : s.shaState = .active)
    (hlen : s.bitlen.toNat % 512 = 8 * s.bufcnt.toNat % 512) : s.ContextInv where
  inner_active _ := hsha
  uninit_empty h := by rw [hsha] at h; cases h
  final_empty h := by rw [hsha] at h; cases h
  bitlen_bufcnt _ := hlen

theorem State.ContextInv.of_final {s : State} (hsha : s.shaState = .final) (hcnt : s.bufcnt = 0)
    (hinner : s.hmacInner = false) : s.ContextInv where
  inner_active h := by rw [hinner] at h; cases h
  uninit_empty h := by rw [hsha] at h; cases h
  final_empty _ := hcnt
  bitlen_bufcnt h := absurd hsha h

/-- Absorbing keeps BITLEN and BUFCNT in step (R42 item 7): each byte adds 8 to the one and 1 to the other, and a block is 512 bits. -/
theorem State.absorb_bitlen_bufcnt {s : State} (h : s.bitlen.toNat % 512 = 8 * s.bufcnt.toNat % 512) (d : List Byte) :
    (s.absorb d).bitlen.toNat % 512 = 8 * (s.absorb d).bufcnt.toNat % 512 := by
  obtain ⟨-, -, hcnt, hlen⟩ := s.absorb_spec d
  rw [hcnt, hlen, BitVec.toNat_add, BitVec.toNat_ofNat]
  omega

/-- A completion step whose sequence condition holds keeps the invariants of the hash context: it opens a context, extends an
active one, closes it, or leaves it. -/
theorem perform_contextInv {i : Instr} {s : State} (hs : s.ContextInv) (hq : s.seqOK i = true) :
    (perform i s).ContextInv := by
  cases i with
  | shaInit => exact .of_active rfl rfl
  | hmacStart =>
    refine .of_active (by simp) ?_
    exact State.absorb_bitlen_bufcnt (s := s.ctxInit) rfl _
  | shaUpdate len =>
    have hactive : s.shaState = .active := of_decide_eq_true hq
    have hlen := hs.bitlen_bufcnt (by simp [hactive])
    exact .of_active (by simp [hactive]) (s.absorb_bitlen_bufcnt hlen _)
  | shaFinal =>
    have hinner : s.hmacInner = false := by simpa using (Bool.and_eq_true_iff.1 hq).2
    exact .of_final rfl rfl hinner
  | hmacFinish => exact .of_final rfl rfl rfl
  | _ => exact hs.congr (by simp)

/-! ## The sequencing state -/

/-- Of an idle block with nothing pending, the invariants are those of the hash context, a legal ERR and no count of steps. -/
theorem State.Inv.of_idle {s : State} (hc : s.ContextInv) (hb : s.busy = false) (hp : s.pend = none)
    (he : s.err.toNat ≤ 4) (hw : s.wait = 0) : s.Inv where
  bufcnt_lt := s.bufcnt.isLt
  inner_active := hc.inner_active
  uninit_empty := hc.uninit_empty
  final_empty := hc.final_empty
  busy_iff_pend := by simp [hb, hp]
  err_legal := he
  bitlen_bufcnt := hc.bitlen_bufcnt
  pend_admitted i h := by rw [hp] at h; cases h
  reset_idle _ := hb
  idle_wait _ := hw

theorem State.Inv.pend_eq_none {s : State} (hs : s.Inv) (hb : s.busy = false) : s.pend = none := by
  by_contra hp
  rw [hs.busy_iff_pend.2 hp] at hb
  cases hb

/-! Each small operation keeps the invariants. -/

theorem State.Inv.setErr {s : State} (hs : s.Inv) {e : BitVec 4} (he : e.toNat ≤ 4) : { s with err := e }.Inv :=
  { hs with err_legal := he }

theorem State.Inv.reject {s : State} (hs : s.Inv) (c : ErrCode) : (s.reject c).Inv :=
  hs.setErr (by cases c <;> decide)

theorem State.Inv.setInputs {s : State} (hs : s.Inv) (l : List HostInput) : { s with inputs := l }.Inv := { hs with }

theorem State.Inv.setDin {s : State} (hs : s.Inv) (d : Vector Word 16) : { s with din := d }.Inv := { hs with }

theorem State.Inv.setRk {s : State} (hs : s.Inv) (k : Vector Word 44) : { s with rk := k }.Inv := { hs with }

theorem State.Inv.record {s : State} (hs : s.Inv) (w : Word) : (s.record w).Inv := { hs with }

theorem State.Inv.tick {s : State} (hs : s.Inv) : s.tick.Inv :=
  { hs with idle_wait := fun hb => by rw [State.tick_wait, hs.idle_wait hb] }

theorem State.Inv.takeLatency {s : State} (hs : s.Inv) : s.takeLatency.Inv := by
  unfold State.takeLatency
  split <;> exact { hs with }

/-- Reset leaves an idle block whose context is empty, whatever was there before (R41, R311). -/
theorem State.Inv.resetBlock (s : State) (b : Bool) : { s.resetBlock with inReset := b }.Inv :=
  .of_idle ⟨by simp, by simp, by simp, by simp⟩ rfl rfl (by simp) rfl

/-- A command that passed the checks of R283 may be pending, out of reset. -/
theorem State.Inv.setPending {s : State} (hs : s.Inv) {i : Instr} (n : Nat) (hr : s.inReset = false)
    (hi : i.wellFormed = true ∧ s.seqOK i = true ∧ i ≠ .clrErr) : (s.setPending i n).Inv :=
  { hs with
    busy_iff_pend := by simp
    pend_admitted := fun j hj => by cases hj; exact hi
    reset_idle := fun h => by rw [State.setPending_inReset, hr] at h; cases h
    idle_wait := fun h => by cases h }

/-- The end of a completion step leaves an idle block that meets the invariants. -/
theorem State.Inv.complete {s : State} (hs : s.Inv) {i : Instr} (hq : s.seqOK i = true) (hw : s.wait = 0) :
    (perform i s).clearPending.Inv := by
  have hc : (perform i s).clearPending.ContextInv := (perform_contextInv hs.context hq).congr (by simp)
  exact .of_idle hc rfl rfl (by simpa using hs.err_legal) (by simpa using hw)

theorem State.clearPending_of_idle {s : State} (hb : s.busy = false) (hp : s.pend = none) : s.clearPending = s := by
  rw [State.clearPending, ← hb, ← hp]

theorem State.seqOK_takeLatency (s : State) (i : Instr) : s.takeLatency.seqOK i = s.seqOK i := by
  cases i <;> simp [State.seqOK]

/-- Accepting an admitted command keeps the invariants, whether it is performed at once or left pending. -/
theorem State.Inv.accept {s : State} (hs : s.Inv) {i : Instr} (hr : s.inReset = false) (hb : s.busy = false)
    (hi : i.wellFormed = true ∧ s.seqOK i = true ∧ i ≠ .clrErr) : (s.accept i (perform i)).Inv := by
  rw [← s.seqOK_takeLatency] at hi
  rcases s.accept_cases i (perform i) with ⟨-, h⟩ | ⟨n, -, h⟩ <;> rw [h]
  · have hdone := hs.takeLatency.complete hi.2.1 (by simpa using hs.idle_wait hb)
    rwa [State.clearPending_of_idle (by simpa using hb) (by simpa using hs.pend_eq_none hb)] at hdone
  · exact hs.takeLatency.setPending n (by simpa using hr) hi

/-! ## Every step -/

theorem State.Inv.issueCommand {s t : State} {v : Word} (hs : s.Inv) (hr : s.inReset = false)
    (h : issueCommand v s = .next t) : t.Inv := by
  rcases issueCommand_next h with ⟨c, rfl⟩ | rfl | ⟨i, -, hne, hb, hwf, hq, rfl⟩
  · exact hs.reject c
  · exact hs.setErr (by decide)
  · exact hs.accept hr hb ⟨hwf, hq, hne⟩

theorem State.Inv.writeReg {s t : State} {r : Reg} {v : Word} (hs : s.Inv) (hr : s.inReset = false)
    (h : s.writeReg r v = .next t) : t.Inv := by
  rcases State.writeReg_next h with ⟨-, hc⟩ | ⟨k, -, -, rfl⟩ | ⟨k, rfl⟩ | rfl | rfl
  · exact hs.issueCommand hr hc
  · exact hs.setDin _
  · exact hs.setRk _
  · exact hs.reject .busy
  · exact hs

theorem State.Inv.takeInput {s t : State} {i : HostInput} (hs : s.Inv) (h : takeInput i s = .next t) : t.Inv := by
  rcases takeInput_next h with ⟨w, l, rfl⟩ | ⟨off, v, -, -, hr, hw⟩ | ⟨-, ⟨b, rfl⟩ | rfl⟩
  · exact (hs.record w).setInputs l
  · exact hs.writeReg hr hw
  · exact .resetBlock s b
  · exact hs

/-- Settles O49: the completion of an admitted command, the passing of a step, and every input keep the invariants. -/
theorem stepKeepsInvariants : Obligations.StepKeepsInvariants := by
  intro s t hs h
  rcases step_next h with ⟨i, hp, hw, -, rfl⟩ | rfl | ⟨i, rest, -, ht⟩
  · obtain ⟨-, hq, -⟩ := hs.pend_admitted i hp
    exact hs.complete hq hw
  · exact hs.tick
  · exact (hs.tick.setInputs rest).takeInput ht

/-- Settles O48: the state after reset is what resetting any block leaves. -/
theorem resetMeetsInvariants : Obligations.ResetMeetsInvariants :=
  State.Inv.resetBlock State.reset false

/-- Settles O59: every vector is a replicated zero, and STATUS packs fields that are all zero. -/
theorem resetValues : Obligations.ResetValues := by
  refine ⟨?_, ?_, ?_, ?_, ?_, ?_, rfl, rfl, rfl, rfl, ?_, rfl, rfl, rfl, fun d => ⟨rfl, rfl⟩⟩ <;>
    exact fun i => Vector.getElem_replicate i.isLt

end Sys2Proof.Machine
end

section
/-! PROOFS, the window and its accesses (20_memory.md R60 to R66; 60_exceptions.md R288): the bytes of a data window, which
addresses the window holds, what the bus answers to an access it does not admit, and the reserved offsets. -/

namespace Sys2Proof.Machine

/-! ## The bytes of a window (R64, R10) -/

/-- Byte `j` of a word as a number: the word shifted down to that byte. -/
theorem wordByte_eq_ofNat (w : Word) (j : Nat) : wordByte w j = BitVec.ofNat 8 (w.toNat / 2 ^ (24 - 8 * j)) := by
  rw [← Nat.shiftRight_eq_div_pow]
  rfl

/-- BE32 undoes BEbytes (R10). -/
theorem be32_wordByte (w : Word) : be32 (wordByte w 0) (wordByte w 1) (wordByte w 2) (wordByte w 3) = w := by
  apply BitVec.eq_of_toNat_eq
  rw [be32, toNat_append_eq, toNat_append_eq, toNat_append_eq]
  simp only [wordByte_eq_ofNat, BitVec.toNat_ofNat]
  omega

/-- Each word of a window takes four places of its byte sequence. -/
theorem bytesOf_getD (ws : List Word) {j : Nat} (hj : j / 4 < ws.length) :
    (bytesOf ws).getD j 0 = wordByte ws[j / 4] (j % 4) := by
  induction ws generalizing j with
  | nil => exact absurd hj (Nat.not_lt_zero _)
  | cons w ws ih =>
    match j with
    | 0 | 1 | 2 | 3 => rfl
    | k + 4 =>
      have hk : k / 4 < ws.length := by rw [List.length_cons] at hj; omega
      have hdiv : (k + 4) / 4 = k / 4 + 1 := by omega
      have hmod : (k + 4) % 4 = k % 4 := by omega
      simp only [hdiv, hmod, List.getElem_cons_succ]
      exact ih hk

/-- The packing of any data window, with the byte as a number. -/
theorem bytesOf_toList_getD {n : Nat} (ws : Vector Word n) {j : Nat} (hj : j / 4 < n) :
    (bytesOf ws.toList).getD j 0 = BitVec.ofNat 8 (ws[j / 4].toNat / 2 ^ (24 - 8 * (j % 4))) := by
  rw [bytesOf_getD ws.toList (by rwa [Vector.length_toList]), Vector.getElem_toList, wordByte_eq_ofNat]

/-- Settles O43: the four windows are packed alike, and a word is put together again from its bytes. -/
theorem bytePackingOfWindows : Obligations.BytePackingOfWindows := fun s w =>
  ⟨fun _ => bytesOf_toList_getD s.din _, fun _ => bytesOf_toList_getD s.digest _,
    fun _ => bytesOf_toList_getD s.aesout _, fun _ => bytesOf_toList_getD s.rk _, be32_wordByte w⟩

/-! ## The answer to an access (R260, R261, R288) -/

/-- An access that the bus does not admit ends with the reason. -/
theorem hostRead_of_refusal {s : State} {off : Nat} {width : Width} {stop : Result}
    (h : s.refusal off width = some stop) : hostRead off width s = stop := by
  rw [hostRead, h]

theorem hostWrite_of_refusal {s : State} {off : Nat} {width : Width} {stop : Result} (v : Word)
    (h : s.refusal off width = some stop) : hostWrite off width v s = stop := by
  rw [hostWrite, h]

/-- An admitted read records the word of the register it names. -/
theorem hostRead_of_admitted {s : State} {off : Nat} {width : Width} (h : s.refusal off width = none) :
    hostRead off width s = .next (s.record (s.readReg (regAt off) (Config.draw s.fresh))) := by
  rw [hostRead, h]

/-- An admitted write is the write of the register it names. -/
theorem hostWrite_of_admitted {s : State} {off : Nat} {width : Width} (v : Word) (h : s.refusal off width = none) :
    hostWrite off width v s = s.writeReg (regAt off) v := by
  rw [hostWrite, h]

/-! ## The window (R60, R61) -/

theorem windowOffset_eq_none_iff (addr : Nat) :
    windowOffset addr = none ↔ addr < Config.base ∨ Config.base + 0x1FF < addr := by
  rw [windowOffset, ite_eq_right_iff]
  simp only [reduceCtorEq, imp_false]
  omega

theorem windowOffset_base_add {off : Nat} (h : off < 0x200) : windowOffset (Config.base + off) = some off := by
  rw [windowOffset, if_pos (by omega), Nat.add_sub_cancel_left]

/-- An offset from 0x200 on is outside the window, whatever else the access is (R61, log 4). -/
theorem State.refusal_outsideWindow (s : State) {off : Nat} (width : Width) (h : 0x200 ≤ off) :
    s.refusal off width = some (.refused (.outsideWindow off)) := by
  rw [State.refusal, if_pos h]

/-- Settles O57: the offsets of the window are those below 0x200, and the bus checks for the window first. -/
theorem windowIsRelativeToBase : Obligations.WindowIsRelativeToBase :=
  ⟨fun _ => windowOffset_base_add, windowOffset_eq_none_iff, fun s _ width v hoff =>
    have h := s.refusal_outsideWindow width hoff
    ⟨hostRead_of_refusal h, hostWrite_of_refusal v h⟩⟩

/-! ## Malformed accesses (R62, R63, R288) -/

/-- Any width but 32 bits is a sub-word access, aligned or not (R62, log 5). -/
theorem State.refusal_subWord {s : State} {off : Nat} {width : Width} (hres : s.inReset = false) (hoff : off < 0x200)
    (hwidth : width ≠ .w32) : s.refusal off width = some (.fault (.busFault .subWordAccess off)) := by
  rw [State.refusal, if_neg (Nat.not_le.2 hoff), if_neg (by simp [hres]), if_pos hwidth]

/-- A 32-bit access must be at a multiple of four (R63). -/
theorem State.refusal_misaligned {s : State} {off : Nat} (hres : s.inReset = false) (hoff : off < 0x200)
    (hal : off % 4 ≠ 0) : s.refusal off .w32 = some (.fault (.busFault .misaligned off)) := by
  rw [State.refusal, if_neg (Nat.not_le.2 hoff), if_neg (by simp [hres]), if_neg (not_not_intro rfl), if_pos hal]

/-- Settles O56: reads and writes pass the same checks of the bus. -/
theorem malformedAccessesAreBusFaults : Obligations.MalformedAccessesAreBusFaults := by
  refine fun s off width v hres hoff => ⟨fun hwidth => ?_, ?_⟩
  · have h := State.refusal_subWord hres hoff hwidth
    exact ⟨hostRead_of_refusal h, hostWrite_of_refusal v h⟩
  · rintro rfl hal
    have h := State.refusal_misaligned hres hoff hal
    exact ⟨hostRead_of_refusal h, hostWrite_of_refusal v h⟩

/-! ## Reserved offsets (R66) -/

/-- The map names no register between its blocks nor after the last (R61). -/
theorem regAt_eq_reserved {off : Nat}
    (h : (0x014 ≤ off ∧ off < 0x040) ∨ (0x0B0 ≤ off ∧ off < 0x100) ∨ 0x1B0 ≤ off) : regAt off = .reserved := by
  rw [regAt, if_neg (by omega), if_neg (by omega), if_neg (by omega), if_neg (by omega), if_neg (by omega),
    dif_neg (by omega), dif_neg (by omega), dif_neg (by omega), dif_neg (by omega)]

/-- Settles O55: such an access is admitted, and a reserved register reads zero and ignores writes, busy or not. -/
theorem reservedOffsetsReadZero : Obligations.ReservedOffsetsReadZero := by
  intro s v off hres hal hoff
  have hadm : s.refusal off .w32 = none := (s.refusal_eq_none_iff off .w32).2 ⟨by omega, hres, rfl, hal⟩
  have hreg : regAt off = .reserved := regAt_eq_reserved (by omega)
  rw [hostRead_of_admitted hadm, hostWrite_of_admitted v hadm, hreg]
  exact ⟨rfl, rfl⟩

end Sys2Proof.Machine
end

section
/-! PROOFS, encoding (30_encoding.md R90 to R97): the fields of a word as numbers, the row of the decoder that an OP selects, the
round trips, and what decoding decides at a CMD write. -/

namespace Sys2Proof

/-! ## The fields of a word as numbers (R90, R92) -/

theorem opField_toNat (v : Word) : (opField v).toNat = v.toNat % 256 := by
  simp [opField, BitVec.extractLsb'_toNat]

theorem lenField_toNat (v : Word) : (lenField v).toNat = v.toNat / 256 % 128 := by
  simp [lenField, BitVec.extractLsb'_toNat, Nat.shiftRight_eq_div_pow]

theorem rsvField_toNat (v : Word) : (rsvField v).toNat = v.toNat / 2 ^ 15 := by
  simp only [rsvField, BitVec.extractLsb'_toNat, Nat.shiftRight_eq_div_pow]
  omega

theorem highField_toNat (v : Word) : (highField v).toNat = v.toNat / 256 := by
  simp only [highField, BitVec.extractLsb'_toNat, Nat.shiftRight_eq_div_pow]
  omega

theorem opField_eq_iff (v : Word) (b : Byte) : opField v = b ↔ v.toNat % 256 = b.toNat := by
  rw [← BitVec.toNat_inj, opField_toNat]

theorem rsvField_eq_zero_iff (v : Word) : rsvField v = 0 ↔ v.toNat / 2 ^ 15 = 0 := by
  rw [← BitVec.toNat_inj, rsvField_toNat]
  rfl

theorem highField_eq_zero_iff (v : Word) : highField v = 0 ↔ v.toNat / 256 = 0 := by
  rw [← BitVec.toNat_inj, highField_toNat]
  rfl

/-- The word of R97: OP | (len << 8). -/
theorem encode_toNat (i : Instr) : (encode i).toNat = (lenOperand i).toNat * 256 + (opcode i).toNat := by
  refine (Machine.toNat_append_eq (0#17 ++ lenOperand i) (opcode i)).trans ?_
  rw [Machine.toNat_append_eq]
  simp

@[simp] theorem opField_encode (i : Instr) : opField (encode i) = opcode i := by
  rw [opField_eq_iff, encode_toNat]
  have := (opcode i).isLt
  omega

@[simp] theorem lenField_encode (i : Instr) : lenField (encode i) = lenOperand i := by
  apply BitVec.eq_of_toNat_eq
  rw [lenField_toNat, encode_toNat]
  have := (opcode i).isLt
  have := (lenOperand i).isLt
  omega

@[simp] theorem rsvField_encode (i : Instr) : rsvField (encode i) = 0 := by
  rw [rsvField_eq_zero_iff, encode_toNat]
  have := (opcode i).isLt
  have := (lenOperand i).isLt
  omega

/-- No bit above OP is set in the word of a command whose LEN is zero (R92). -/
theorem highField_encode {i : Instr} (h : lenOperand i = 0) : highField (encode i) = 0 := by
  rw [highField_eq_zero_iff, encode_toNat, h]
  have := (opcode i).isLt
  simp
  omega

/-! ## The row that an OP selects (R91, R93, R96) -/

/-- Whether a command has the operand LEN (R91). -/
def Instr.usesLen : Instr → Bool
  | .shaUpdate _ | .hmacKey _ => true
  | .nop | .shaInit | .shaFinal | .hmacKeyDigest | .hmacStart | .hmacFinish => false
  | .aesKeyexp | .aesEnc | .aesDec | .clrErr => false

/-- The command of the same row with another LEN, where it has one (R91). -/
def Instr.withLen (i : Instr) (len : BitVec 7) : Instr :=
  match i with
  | .shaUpdate _ => .shaUpdate len
  | .hmacKey _ => .hmacKey len
  | i => i

@[simp] theorem opcode_withLen (i : Instr) (len : BitVec 7) : opcode (i.withLen len) = opcode i := by
  cases i <;> rfl

@[simp] theorem withLen_lenOperand (i : Instr) : i.withLen (lenOperand i) = i := by
  cases i <;> rfl

theorem lenOperand_withLen (i : Instr) (len : BitVec 7) : lenOperand (i.withLen len) = if i.usesLen then len else 0 := by
  cases i <;> rfl

theorem withLen_of_not_usesLen {i : Instr} (h : i.usesLen = false) (len : BitVec 7) : i.withLen len = i := by
  cases i with
  | shaUpdate _ | hmacKey _ => cases h
  | _ => rfl

theorem lenOperand_of_not_usesLen {i : Instr} (h : i.usesLen = false) : lenOperand i = 0 := by
  cases i with
  | shaUpdate _ | hmacKey _ => cases h
  | _ => rfl

/-- The two rows with LEN are those of OP 0x02 and 0x10 (R91, R93). -/
theorem usesLen_iff_opcode (i : Instr) : i.usesLen = true ↔ (opcode i).toNat = 0x02 ∨ (opcode i).toNat = 0x10 := by
  cases i <;> simp [Instr.usesLen, opcode]

/-- A command is well-formed exactly when its LEN, zero where it has none, is at most 64 (R91). -/
theorem wellFormed_iff_lenOperand (i : Instr) : i.wellFormed = true ↔ (lenOperand i).toNat ≤ 64 := by
  cases i with
  | shaUpdate len | hmacKey len => exact decide_eq_true_iff
  | _ => decide

/-- A word whose OP is a command's is decoded by that command's row (R93, R96). -/
theorem decode_of_opField {v : Word} {i : Instr} (h : opField v = opcode i) :
    decode v = if i.usesLen then decodeLen v i.withLen else decodePlain v i := by
  cases i <;> simp only [decode, h] <;> rfl

/-- A word whose OP is no command's is decoded as an undefined opcode (R94, R96). -/
theorem decode_of_undefined {v : Word} (h : ∀ i, opField v ≠ opcode i) : decode v = .error .opcode := by
  have hlen : opField v ≠ 0x02 ∧ opField v ≠ 0x10 := ⟨h (.shaUpdate 0), h (.hmacKey 0)⟩
  have hsha : opField v ≠ 0x00 ∧ opField v ≠ 0x01 ∧ opField v ≠ 0x03 := ⟨h .nop, h .shaInit, h .shaFinal⟩
  have hhmac : opField v ≠ 0x11 ∧ opField v ≠ 0x12 ∧ opField v ≠ 0x13 := ⟨h .hmacKeyDigest, h .hmacStart, h .hmacFinish⟩
  have haes : opField v ≠ 0x20 ∧ opField v ≠ 0x21 ∧ opField v ≠ 0x22 ∧ opField v ≠ 0x30 :=
    ⟨h .aesKeyexp, h .aesEnc, h .aesDec, h .clrErr⟩
  simp only [decode, hlen, hsha, hhmac, haes, if_false]

/-- One command of each row of R93. -/
def tableCommands : List Instr :=
  [.nop, .shaInit, .shaUpdate 0, .shaFinal, .hmacKey 0, .hmacKeyDigest, .hmacStart, .hmacFinish,
   .aesKeyexp, .aesEnc, .aesDec, .clrErr]

theorem opcode_mem_tableCommands (i : Instr) : ∃ j ∈ tableCommands, opcode j = opcode i := by
  cases i with
  | shaUpdate len => exact ⟨.shaUpdate 0, by simp [tableCommands], rfl⟩
  | hmacKey len => exact ⟨.hmacKey 0, by simp [tableCommands], rfl⟩
  | _ => exact ⟨_, by simp [tableCommands], rfl⟩

/-- The twelve OP values that are defined (R93, R94). -/
theorem opcode_toNat_defined_iff (n : Nat) :
    n ∈ [0x00, 0x01, 0x02, 0x03, 0x10, 0x11, 0x12, 0x13, 0x20, 0x21, 0x22, 0x30] ↔ ∃ i, (opcode i).toNat = n := by
  have hrows : tableCommands.map (fun i => (opcode i).toNat) =
    [0x00, 0x01, 0x02, 0x03, 0x10, 0x11, 0x12, 0x13, 0x20, 0x21, 0x22, 0x30] := rfl
  rw [← hrows, List.mem_map]
  constructor
  · rintro ⟨i, -, hi⟩
    exact ⟨i, hi⟩
  · rintro ⟨i, rfl⟩
    obtain ⟨j, hj, hop⟩ := opcode_mem_tableCommands i
    exact ⟨j, hj, congrArg BitVec.toNat hop⟩

/-! ## The round trips -/

/-- The word of a command decodes to the command, or, where its LEN is above 64, is turned away for it (R91, R96). -/
theorem decode_encode (i : Instr) : decode (encode i) = if i.wellFormed then .ok i else .error .argument := by
  rw [decode_of_opField (opField_encode i)]
  cases hlen : i.usesLen with
  | true => simp [decodeLen, wellFormed_iff_lenOperand]
  | false =>
    have hzero := lenOperand_of_not_usesLen hlen
    have hwf : i.wellFormed = true := by simp [wellFormed_iff_lenOperand, hzero]
    simp [decodePlain, highField_encode hzero, hwf]

/-- Settles O1: the word has the command's OP and LEN and no reserved bit, so its row gives the command back. -/
theorem decodeEncodeRoundTrip : Obligations.DecodeEncodeRoundTrip := by
  intro i hwf
  rw [decode_encode, if_pos hwf]

/-- Settles O2: the word is the command's own, and that word is turned away where the command is not well-formed. -/
theorem encodeDecodeRoundTrip : Obligations.EncodeDecodeRoundTrip := by
  intro v i h
  have hword : encode i = v := encode_of_decode h
  rw [← hword, decode_encode] at h
  split at h
  next hwf => exact ⟨hword, hwf⟩
  next => cases h

/-! ## The decode rule (R96) -/

/-- The word sets a bit reserved in the command's row, or its LEN is above 64 (R91, R92). -/
def Instr.BadArgument (i : Instr) (v : Word) : Prop :=
  (i.usesLen = true ∧ (v.toNat / 2 ^ 15 ≠ 0 ∨ v.toNat / 256 % 128 > 64)) ∨ (¬ i.usesLen = true ∧ v.toNat / 256 ≠ 0)

/-- A row with LEN checks RSV and LEN; a row without checks every bit above OP (R91, R92). -/
theorem decode_of_badArgument {v : Word} {i : Instr} (h : opField v = opcode i) (hbad : i.BadArgument v) :
    decode v = .error .argument := by
  rw [decode_of_opField h]
  rcases hbad with ⟨hlen, hbits⟩ | ⟨hlen, hbits⟩
  · rw [if_pos hlen, decodeLen, if_neg]
    rw [rsvField_eq_zero_iff, lenField_toNat]
    omega
  · rw [if_neg hlen, decodePlain, if_neg]
    rwa [highField_eq_zero_iff]

/-- Where the row finds nothing wrong, the word is its command with the word's LEN (R96). -/
theorem decode_of_goodArgument {v : Word} {i : Instr} (h : opField v = opcode i) (hgood : ¬ i.BadArgument v) :
    decode v = .ok (i.withLen (lenField v)) := by
  rw [decode_of_opField h]
  cases hlen : i.usesLen with
  | true =>
    rw [if_pos rfl, decodeLen, if_pos]
    rw [rsvField_eq_zero_iff, lenField_toNat]
    by_contra hbits
    exact hgood (.inl ⟨hlen, by omega⟩)
  | false =>
    rw [if_neg (by decide), decodePlain, if_pos, withLen_of_not_usesLen hlen]
    rw [highField_eq_zero_iff]
    by_contra hbits
    exact hgood (.inr ⟨by simp [hlen], hbits⟩)

namespace Machine

/-- A busy block rejects a word whose OP is not the one of CLR_ERR, whatever it would decode to (R283, R284). -/
theorem issueCommand_of_busy {v : Word} {s : State} (hb : s.busy = true) (hop : opField v ≠ 0x30) :
    issueCommand v s = .next (s.reject .busy) := by
  rw [issueCommand, if_pos ⟨hb, hop⟩]

/-- Past the busy check, a word that is a command is executed (R283). -/
theorem issueCommand_of_decode_ok {v : Word} {s : State} {i : Instr} (hb : s.busy = false ∨ opField v = 0x30)
    (hd : decode v = .ok i) : issueCommand v s = exec i s := by
  rw [issueCommand, if_neg (by rcases hb with h | h <;> simp [h]), hd]

end Machine

/-- Settles O3: a defined OP selects a row, and the row decides by the word's other bits. -/
theorem decodeFollowsTheDecodeRule : Obligations.DecodeFollowsTheDecodeRule := by
  intro v op len known usesLen badArg
  have hrow (hknown : known) : ∃ i, opField v = opcode i ∧ (opcode i).toNat = op := by
    obtain ⟨i, hi⟩ := (opcode_toNat_defined_iff op).1 hknown
    exact ⟨i, (opField_eq_iff v _).2 hi.symm, hi⟩
  have hlen {i : Instr} (hop : (opcode i).toNat = op) : usesLen ↔ i.usesLen = true := by
    rw [usesLen_iff_opcode, hop]
  have hbad {i : Instr} (hop : (opcode i).toNat = op) : badArg ↔ i.BadArgument v :=
    or_congr (and_congr_left' (hlen hop)) (and_congr_left' (not_congr (hlen hop)))
  refine ⟨fun hundef => ?_, fun hknown harg => ?_, fun hknown harg => ?_, fun s hb hop => ?_, fun s i hb hd => ?_⟩
  · refine decode_of_undefined fun i hi => hundef ((opcode_toNat_defined_iff op).2 ⟨i, ?_⟩)
    exact ((opField_eq_iff v _).1 hi).symm
  · obtain ⟨i, hi, hop⟩ := hrow hknown
    exact decode_of_badArgument hi ((hbad hop).1 harg)
  · obtain ⟨i, hi, hop⟩ := hrow hknown
    refine ⟨i.withLen (lenField v), decode_of_goodArgument hi (mt (hbad hop).2 harg), ?_, ?_⟩
    · rw [opcode_withLen, hop]
    · rw [lenOperand_withLen, apply_ite BitVec.toNat, lenField_toNat]
      exact if_congr (hlen hop).symm rfl rfl
  · exact Machine.issueCommand_of_busy hb fun h => hop ((opField_eq_iff v _).1 h)
  · exact Machine.issueCommand_of_decode_ok (hb.imp_right (opField_eq_iff v _).2) hd

/-- Settles O4: each word is evaluated. -/
theorem wordsOfTheSpecDecode : Obligations.WordsOfTheSpecDecode := by
  unfold Obligations.WordsOfTheSpecDecode
  decide

end Sys2Proof
end

section
/-! PROOFS, the byte loads of a host program (30_encoding.md R98; 20_memory.md R64): what LOADB leaves in DIN. -/

namespace Sys2Proof.Machine

/-- The bytes of a packed word are the bytes of the string at its four places, zero beyond its end (R64, R98). -/
theorem wordByte_packWord (bs : List Byte) (k : Nat) {r : Nat} (hr : r < 4) :
    wordByte (packWord bs k) r = bs.getD (4 * k + r) 0 := by
  have hword (b0 b1 b2 b3 : Byte) : wordByte (be32 b0 b1 b2 b3) r = [b0, b1, b2, b3].getD r 0 := by
    apply BitVec.eq_of_toNat_eq
    rw [wordByte_eq_ofNat, be32, toNat_append_eq, toNat_append_eq, toNat_append_eq]
    have := b0.isLt; have := b1.isLt; have := b2.isLt; have := b3.isLt
    match r, hr with
    | 0, _ | 1, _ | 2, _ | 3, _ => simp; omega
  rw [packWord, hword]
  match r, hr with
  | 0, _ | 1, _ | 2, _ | 3, _ => rfl

/-- The writes of LOADB leave no step counted where none was (log 2). -/
theorem wait_of_run_writeWords (bs : List Byte) {rest : List HostInput} (n k : Nat) {s t : State} (hk : k + n ≤ 16)
    (hb : s.busy = false) (hr : s.inReset = false) (hw : s.wait = 0)
    (hi : s.inputs = (List.range' k n).map (fun k => .write (0x040 + 4 * k) .w32 (packWord bs k)) ++ rest)
    (h : core.run n s = .next t) : t.wait = 0 := by
  induction n generalizing k s with
  | zero => rw [core_run_zero] at h; cases h; exact hw
  | succ n ih =>
    rw [List.range'_succ, List.map_cons, List.cons_append] at hi
    rw [core_run_succ n (step_writeDin (by omega) hb hr hi)] at h
    refine ih (k + 1) (by omega) ?_ ?_ ?_ ?_ h
    exacts [hb, hr, by simp [hw], rfl]

/-- The accesses of LOADB, taken by an idle block (R98): its words are in DIN, and nothing else has changed. -/
theorem run_loadb {s : State} {bs : List Byte} {rest : List HostInput} (hb : s.busy = false) (hr : s.inReset = false)
    (hw : s.wait = 0) (hl : bs.length ≤ 64) (hi : s.inputs = (HostOp.loadb bs).expand ++ rest) :
    core.run ((bs.length + 3) / 4) s = .next { s.loadBytes bs with inputs := rest } := by
  rw [HostOp.expand, List.range_eq_range'] at hi
  obtain ⟨w, h⟩ := run_writeWords bs ((bs.length + 3) / 4) 0 (by omega) hb hr hi
  have hwait : w = s.wait := (wait_of_run_writeWords bs _ 0 (by omega) hb hr hw hi h).trans hw.symm
  rw [h, hwait]
  simp only [Nat.zero_le, true_and, Nat.zero_add]
  rfl

theorem State.loadBytes_din (s : State) (bs : List Byte) {k : Nat} (hk : k < 16) :
    (s.loadBytes bs).din[k] = if k < (bs.length + 3) / 4 then packWord bs k else s.din[k] :=
  Vector.getElem_ofFn hk

/-- Below the end of the packed words, the bytes of DIN are those of the string, zero beyond it (R64, R98). -/
theorem State.loadBytes_din_getD (s : State) {bs : List Byte} {j : Nat} (hl : bs.length ≤ 64)
    (hj : j < 4 * ((bs.length + 3) / 4)) : (bytesOf (s.loadBytes bs).din.toList).getD j 0 = bs.getD j 0 := by
  have hword : j / 4 < (bs.length + 3) / 4 := by omega
  rw [bytesOf_getD _ (by rw [Vector.length_toList]; omega), Vector.getElem_toList, State.loadBytes_din, if_pos hword,
    wordByte_packWord bs _ (Nat.mod_lt j (by decide)), Nat.div_add_mod]

/-- Settles O58: the run leaves the packed words and every later word, and a packed word's bytes are those of the string. -/
theorem loadbPacksBytesIntoDin : Obligations.LoadbPacksBytesIntoDin := by
  intro s bs rest hb hr hw hl hi
  refine ⟨{ s.loadBytes bs with inputs := rest }, run_loadb hb hr hw hl hi, rfl, fun k hk => ?_, fun j hj => ?_⟩
  · exact (s.loadBytes_din bs k.isLt).trans (if_neg (by omega))
  · exact s.loadBytes_din_getD hl hj

end Sys2Proof.Machine
end

section
/-! PROOFS, the SHA-256 functions (40_sha256.md R120 to R129): the logical functions bit by bit, the recurrence of the message
schedule, and the rounds of Compress one at a time. -/

namespace Sys2Proof.Machine

/-! ## The logical functions (R120 to R123) -/

/-- A shift brings in zeros from above (R120). -/
theorem getLsbD_shr (n : Nat) (x : Word) (i : Nat) :
    (shr n x).getLsbD i = (decide (i + n < 32) && x.getLsbD (i + n)) := by
  rw [shr, BitVec.getLsbD_ushiftRight, Nat.add_comm]
  by_cases h : i + n < 32
  · simp [h]
  · simp [h, BitVec.getLsbD_of_ge x (i + n) (by omega)]

/-- A rotation brings in the bits it has shifted out (R120). -/
theorem getLsbD_rotr {n : Nat} (hpos : 0 < n) (hn : n < 32) (x : Word) {i : Nat} (hi : i < 32) :
    (rotr n x).getLsbD i = x.getLsbD ((i + n) % 32) := by
  rw [rotr, BitVec.getLsbD_or, BitVec.getLsbD_ushiftRight, BitVec.getLsbD_shiftLeft, Nat.add_comm n i]
  by_cases h : i + n < 32
  · rw [Nat.mod_eq_of_lt h]
    simp [show i < 32 - n by omega]
  · have hmod : (i + n) % 32 = i - (32 - n) := by omega
    rw [hmod, BitVec.getLsbD_of_ge x (i + n) (by omega)]
    simp [hi, show ¬ i < 32 - n by omega]

/-- Ch selects by its first argument (R121). -/
theorem getLsbD_ch (x y z : Word) {i : Nat} (hi : i < 32) :
    (ch x y z).getLsbD i = if x.getLsbD i then y.getLsbD i else z.getLsbD i := by
  simp only [ch, BitVec.getLsbD_xor, BitVec.getLsbD_and, BitVec.getLsbD_not, hi]
  cases x.getLsbD i <;> simp

/-- Maj takes the majority (R121). -/
theorem getLsbD_maj (x y z : Word) (i : Nat) :
    (maj x y z).getLsbD i =
      ((x.getLsbD i && y.getLsbD i) || (x.getLsbD i && z.getLsbD i) || (y.getLsbD i && z.getLsbD i)) := by
  simp only [maj, BitVec.getLsbD_xor, BitVec.getLsbD_and]
  cases x.getLsbD i <;> cases y.getLsbD i <;> simp

/-- Settles O29: each sigma is the XOR of rotations and shifts, whose bits are known. -/
theorem logicalFunctionsBitByBit : Obligations.LogicalFunctionsBitByBit := by
  intro x y z i
  have hrot {n : Nat} (hpos : 0 < n) (hn : n < 32) := getLsbD_rotr hpos hn x i.isLt
  refine ⟨fun n _ _ => getLsbD_shr n x i, fun n => hrot, getLsbD_ch x y z i.isLt, getLsbD_maj x y z i, ?_, ?_, ?_, ?_⟩
  · simp only [bigSigma0, BitVec.getLsbD_xor, hrot, Nat.reduceLT]
  · simp only [bigSigma1, BitVec.getLsbD_xor, hrot, Nat.reduceLT]
  · simp only [smallSigma0, BitVec.getLsbD_xor, hrot, Nat.reduceLT, getLsbD_shr]
  · simp only [smallSigma1, BitVec.getLsbD_xor, hrot, Nat.reduceLT, getLsbD_shr]

/-! ## The message schedule (R126, R127) -/

/-- Extending puts `n` words in front of those that are there. -/
theorem exists_extendSchedule_eq_append (n : Nat) (w : List Word) :
    ∃ v : List Word, v.length = n ∧ extendSchedule n w = v ++ w := by
  induction n generalizing w with
  | zero => exact ⟨[], rfl, rfl⟩
  | succ n ih =>
    obtain ⟨v, hlen, hv⟩ := ih (nextScheduleWord w :: w)
    exact ⟨v ++ [nextScheduleWord w], by simp [hlen], by simp [extendSchedule, hv]⟩

/-- Words, newest first, of which each with sixteen or more before it is what the recurrence makes of those (R127). -/
def FollowsRecurrence (w : List Word) : Prop :=
  ∀ i, i + 16 < w.length → w.getD i 0 = nextScheduleWord (w.drop (i + 1))

theorem FollowsRecurrence.cons {w : List Word} (hw : FollowsRecurrence w) :
    FollowsRecurrence (nextScheduleWord w :: w) := by
  intro i hi
  cases i with
  | zero => rfl
  | succ i => exact hw i (by rw [List.length_cons] at hi; omega)

theorem FollowsRecurrence.extendSchedule {w : List Word} (hw : FollowsRecurrence w) (n : Nat) :
    FollowsRecurrence (extendSchedule n w) := by
  induction n generalizing w with
  | zero => exact hw
  | succ n ih => exact ih hw.cons

theorem length_messageWords (b : Vector Byte 64) : (messageWords b).length = 16 := by
  simp [messageWords]

/-- The words of the schedule start with those of the block (R126). -/
theorem exists_schedule_eq_append (b : Vector Byte 64) :
    ∃ v : List Word, v.length = 48 ∧ schedule b = messageWords b ++ v := by
  obtain ⟨v, hlen, hv⟩ := exists_extendSchedule_eq_append 48 (messageWords b).reverse
  exact ⟨v.reverse, by simpa using hlen, by simp [schedule, hv]⟩

theorem length_schedule (b : Vector Byte 64) : (schedule b).length = 64 := by
  obtain ⟨v, hlen, hv⟩ := exists_schedule_eq_append b
  rw [hv, List.length_append, length_messageWords, hlen]

/-- The schedule, newest word first, follows the recurrence (R127). -/
theorem followsRecurrence_schedule (b : Vector Byte 64) : FollowsRecurrence (schedule b).reverse := by
  rw [schedule, List.reverse_reverse]
  refine FollowsRecurrence.extendSchedule (fun i hi => ?_) 48
  rw [List.length_reverse, length_messageWords] at hi
  omega

theorem getD_messageWords (b : Vector Byte 64) (t : Fin 16) :
    (messageWords b).getD t.val 0 = be32 b[4 * t.val] b[4 * t.val + 1] b[4 * t.val + 2] b[4 * t.val + 3] := by
  simp [messageWords, List.getD_eq_getElem?_getD]

/-- Counted from the end, word `t` of the schedule is word `63 - t`. -/
theorem getD_schedule_reverse (b : Vector Byte 64) {i : Nat} (hi : i < 64) :
    (schedule b).reverse.getD i 0 = (schedule b).getD (63 - i) 0 := by
  have hlen := length_schedule b
  rw [List.getD_eq_getElem?_getD, List.getElem?_reverse (by omega), hlen, List.getD_eq_getElem?_getD]

/-- Settles O30: the first sixteen words are the block's, and the recurrence, which the model runs newest word first, is read
from the other end. -/
theorem messageScheduleRecurrence : Obligations.MessageScheduleRecurrence := by
  intro b w
  refine ⟨length_schedule b, fun t => ?_, fun t hlow hhigh => ?_⟩
  · obtain ⟨v, -, hv⟩ := exists_schedule_eq_append b
    show (schedule b).getD t.val 0 = _
    rw [hv, List.getD_append _ _ _ _ (by rw [length_messageWords]; exact t.isLt), getD_messageWords]
  · have hrec := followsRecurrence_schedule b (63 - t) (by rw [List.length_reverse, length_schedule]; omega)
    have hword (j : Nat) (hj : j < t) :
        ((schedule b).reverse.drop (63 - t + 1)).getD j 0 = (schedule b).getD (t - (j + 1)) 0 := by
      rw [List.getD_eq_getElem?_getD, List.getElem?_drop, ← List.getD_eq_getElem?_getD, getD_schedule_reverse b (by omega)]
      congr 1
      omega
    rwa [getD_schedule_reverse b (by omega), Nat.sub_sub_self (by omega), nextScheduleWord, hword 1 (by omega),
      hword 6 (by omega), hword 14 (by omega), hword 15 (by omega)] at hrec

/-! ## Compress (R128, R129) -/

theorem length_roundConstants : roundConstants.length = 64 := rfl

/-- The working variables before round `t` (R128). -/
def workingBefore (hin : Vector Word 8) (b : Vector Byte 64) (t : Nat) : Working :=
  ((roundConstants.zip (schedule b)).take t).foldl (fun v kw => sha256Round v kw.1 kw.2)
    { a := hin[0], b := hin[1], c := hin[2], d := hin[3], e := hin[4], f := hin[5], g := hin[6], h := hin[7] }

theorem getElem?_zip_getD {ks ws : List Word} {t : Nat} (hk : t < ks.length) (hw : t < ws.length) :
    (ks.zip ws)[t]? = some (ks.getD t 0, ws.getD t 0) := by
  rw [List.getElem?_zip_eq_some]
  simp [hk, hw]

/-- One more round, with K[t] and W[t]. -/
theorem workingBefore_succ (hin : Vector Word 8) (b : Vector Byte 64) {t : Nat} (ht : t < 64) :
    workingBefore hin b (t + 1) =
      sha256Round (workingBefore hin b t) (roundConstants.getD t 0) ((schedule b).getD t 0) := by
  have hkw := getElem?_zip_getD (ks := roundConstants) (ws := schedule b) (t := t)
    (by rw [length_roundConstants]; exact ht) (by rw [length_schedule]; exact ht)
  rw [workingBefore, List.take_add_one, List.foldl_append, hkw]
  rfl

/-- The 64 rounds are all there are. -/
theorem workingBefore_end (hin : Vector Word 8) (b : Vector Byte 64) : workingBefore hin b 64 = runRounds hin b := by
  have hlen : (roundConstants.zip (schedule b)).length = 64 := by
    rw [List.length_zip, length_roundConstants, length_schedule, Nat.min_self]
  rw [workingBefore, List.take_of_length_le (Nat.le_of_eq hlen)]
  rfl

/-- Settles O31: the sequence is that of the working variables before each round. -/
theorem compressFollowsTheRounds : Obligations.CompressFollowsTheRounds := by
  intro hin b
  refine ⟨workingBefore hin b, rfl, fun t ht => workingBefore_succ hin b ht, fun i => ?_⟩
  rw [workingBefore_end]
  fin_cases i <;> rfl

/-- Settles O32: the block is compressed by evaluation. -/
theorem compressWorkedExample : Obligations.CompressWorkedExample := by
  unfold Obligations.CompressWorkedExample
  decide +kernel

end Sys2Proof.Machine
end

section
/-! PROOFS, the SHA commands (40_sha256.md R131 to R138): what an admitted command answers, and what SHA_INIT, SHA_UPDATE and
SHA_FINAL do to the context. -/

namespace Sys2Proof.Machine

/-- An admitted command whose acceptance takes the latency 0 is performed in the CMD write (R262, R283). -/
theorem exec_of_latency_zero {i : Instr} {s : State} {l : List Nat} (hi : i ≠ .clrErr) (hb : s.busy = false)
    (hw : i.wellFormed = true) (hq : s.seqOK i = true) (hl : s.latencies = 0 :: l) :
    exec i s = .next (perform i { s with latencies := l }) := by
  rw [exec_eq_issue i s hi, State.issue, if_neg (by simp [hb]), if_pos hw, if_pos hq, State.accept,
    s.nextLatency_cons 0 l hl, s.takeLatency_cons 0 l hl]

/-- Settles O19: SHA_INIT has no precondition, and its completion writes those fields. -/
theorem shaInitResetsContext : Obligations.ShaInitResetsContext := by
  intro s l hb hl
  exact exec_of_latency_zero (by decide) hb rfl rfl hl

/-! ## SHA_UPDATE (R132, R137) -/

theorem length_bytesOf (ws : List Word) : (bytesOf ws).length = 4 * ws.length := by
  simp [bytesOf, beBytes, List.length_flatMap, Nat.mul_comm]

theorem State.length_dinBytes (s : State) {len : BitVec 7} (h : len.toNat ≤ 64) : (s.dinBytes len).length = len.toNat := by
  rw [State.dinBytes, List.length_take, length_bytesOf, Vector.length_toList]
  omega

/-- A sequence of at least one block and less than two. -/
theorem compressAll_one (h : Vector Word 8) {p : List Byte} (hlow : 64 ≤ p.length) (hhigh : p.length < 128) :
    compressAll h p = compress h (blockOf p) := by
  have hhead : (p.take 64).length = 64 := List.length_take_of_le hlow
  have hall := compressAll_append h (p.take 64) (p.drop 64) hhead
  have hblock := blockOf_append (p.take 64) (p.drop 64) hhead.ge
  rw [List.take_append_drop] at hall hblock
  rw [hall, compressAll_short _ _ (by rw [List.length_drop]; omega), hblock]

/-- Absorbing less than the rest of a block only buffers (R132). -/
theorem State.absorb_short {s : State} {d : List Byte} (h : (s.buffered ++ d).length < 64) :
    (s.absorb d).h = s.h ∧ (s.absorb d).buffered = s.buffered ++ d := by
  obtain ⟨hh, hbuf, -, -⟩ := s.absorb_spec d
  rw [Nat.div_eq_of_lt h] at hbuf
  exact ⟨hh.trans (compressAll_short _ _ h), hbuf⟩

/-- Absorbing past the end of a block, but not of the next one, compresses it and buffers what follows (R132). -/
theorem State.absorb_full {s : State} {d : List Byte} (hlow : 64 ≤ (s.buffered ++ d).length)
    (hhigh : (s.buffered ++ d).length < 128) :
    (s.absorb d).h = compress s.h (blockOf (s.buffered ++ d)) ∧ (s.absorb d).buffered = (s.buffered ++ d).drop 64 := by
  obtain ⟨hh, hbuf, -, -⟩ := s.absorb_spec d
  rw [show (s.buffered ++ d).length / 64 = 1 by omega] at hbuf
  exact ⟨hh.trans (compressAll_one _ hlow hhigh), hbuf⟩

/-- Absorbing nothing changes nothing. -/
theorem State.absorb_nil (s : State) : s.absorb [] = s :=
  State.ext rfl rfl rfl rfl rfl rfl rfl (BitVec.add_zero s.bitlen) rfl rfl rfl rfl rfl rfl rfl rfl rfl rfl rfl rfl

/-- Settles O20: the completion absorbs LEN bytes, which with the buffered ones are less than two blocks. -/
theorem shaUpdateAbsorbsDin : Obligations.ShaUpdateAbsorbsDin := by
  intro s len l hb hlen hactive hl p
  let u : State := { s with latencies := l }
  have hd : (u.dinBytes len).length = len.toNat := u.length_dinBytes hlen
  obtain ⟨-, -, hcnt, hbits⟩ := u.absorb_spec (u.dinBytes len)
  rw [hd] at hcnt hbits
  have hp : p.length < 128 := by
    have hlt := u.bufcnt.isLt
    show (u.buffered ++ u.dinBytes len).length < 128
    rw [List.length_append, u.buffered_length, hd]
    omega
  refine ⟨u.absorb (u.dinBytes len), ?_, u.absorb_frame _, hcnt, ?_, State.absorb_short (s := u) (d := u.dinBytes len),
    fun h => State.absorb_full (s := u) (d := u.dinBytes len) h hp, ?_⟩
  · exact exec_of_latency_zero (i := .shaUpdate len) (by simp) hb (decide_eq_true hlen) (decide_eq_true hactive) hl
  · rw [hbits, BitVec.toNat_add, BitVec.toNat_ofNat, Nat.add_mod_mod]
  · rintro rfl
    exact u.absorb_nil

/-! ## SHA_FINAL (R133, R134, R138) -/

/-- SHA_FINAL is in sequence where the context is active and no inner pass is open (R287). -/
theorem State.seqOK_shaFinal {s : State} (hactive : s.shaState = .active) (hinner : s.hmacInner = false) :
    s.seqOK .shaFinal = true := by
  simp [State.seqOK, hactive, hinner]

/-- The zeros of the padding fill the block, or the next one (R133, R134). -/
theorem padZeros_eq {n : Nat} (hn : n < 64) : padZeros n = if n ≤ 55 then 55 - n else 119 - n := by
  unfold padZeros
  split <;> omega

/-- What PadFinal compresses: one block for up to 55 buffered bytes, two from 56 (R133, R134). -/
theorem State.compressAll_finalBytes (s : State) :
    compressAll s.h s.finalBytes =
      if s.bufcnt.toNat ≤ 55 then compress s.h (blockOf s.finalBytes)
      else compress (compress s.h (blockOf s.finalBytes)) (blockOf (s.finalBytes.drop 64)) := by
  have hlen := s.finalBytes_length
  obtain ⟨hone, htwo⟩ := compressAll_final s.h s.finalBytes
  split at hlen
  next hn => rw [if_pos hn, hone hlen]
  next hn => rw [if_neg hn, htwo hlen]

/-- The buffered bytes with their padding, written out (R133). -/
theorem State.finalBytes_eq (s : State) :
    s.finalBytes = s.buf.toList.take s.bufcnt.toNat ++ [0x80] ++
      List.replicate (if s.bufcnt.toNat ≤ 55 then 55 - s.bufcnt.toNat else 119 - s.bufcnt.toNat) 0 ++ beBytes64 s.bitlen := by
  rw [← padZeros_eq s.bufcnt.isLt, State.finalBytes, padding, List.append_assoc, List.append_assoc]
  rfl

/-- Settles O21: the completion is PadFinal, and its H is published. -/
theorem shaFinalPublishesDigest : Obligations.ShaFinalPublishesDigest := by
  intro s l hb hactive hinner hl n p hash
  have hhash : hash = compressAll s.h s.finalBytes := by rw [s.compressAll_finalBytes, s.finalBytes_eq]
  rw [exec_of_latency_zero (by decide) hb rfl (State.seqOK_shaFinal hactive hinner) hl, hhash]
  rfl

end Sys2Proof.Machine
end

section
/-! PROOFS, the streaming of a message (40_sha256.md R132 to R140): a context holds the hash of the message absorbed so far,
whatever its chunks were, and a run of the host program performs its completion steps. -/

namespace Sys2Proof.Machine

/-! ## Whole blocks and the bytes after them (R133) -/

/-- A whole number of blocks in front is compressed first. -/
theorem compressAll_append_blocks (n : Nat) (h : Vector Word 8) {p : List Byte} (hp : p.length = 64 * n) (q : List Byte) :
    compressAll h (p ++ q) = compressAll (compressAll h p) q := by
  induction n generalizing h p with
  | zero =>
    obtain rfl : p = [] := List.eq_nil_of_length_eq_zero hp
    rfl
  | succ n ih =>
    have hhead : (p.take 64).length = 64 := List.length_take_of_le (by omega)
    have htail : (p.drop 64).length = 64 * n := by rw [List.length_drop]; omega
    rw [← List.take_append_drop 64 p, List.append_assoc, compressAll_append _ _ _ hhead, compressAll_append _ _ _ hhead,
      ih _ htail]

/-- The bytes of a message after its last whole block. -/
def lastBytes (m : List Byte) : List Byte := m.drop (64 * (m.length / 64))

theorem length_lastBytes (m : List Byte) : (lastBytes m).length = m.length % 64 := by
  rw [lastBytes, List.length_drop]
  omega

theorem length_wholeBlocks (m : List Byte) : (m.take (64 * (m.length / 64))).length = 64 * (m.length / 64) :=
  List.length_take_of_le (by omega)

theorem wholeBlocks_append_lastBytes (m : List Byte) : m.take (64 * (m.length / 64)) ++ lastBytes m = m :=
  List.take_append_drop _ m

/-- Whole blocks in front do not count for the bytes after the last one. -/
theorem lastBytes_append_blocks {n : Nat} {p : List Byte} (hp : p.length = 64 * n) (q : List Byte) :
    lastBytes (p ++ q) = lastBytes q := by
  have hdrop : 64 * ((p ++ q).length / 64) = p.length + 64 * (q.length / 64) := by rw [List.length_append]; omega
  rw [lastBytes, hdrop, List.drop_length_add_append, lastBytes]

theorem lastBytes_append (m q : List Byte) : lastBytes (m ++ q) = lastBytes (lastBytes m ++ q) := by
  conv_lhs => rw [← wholeBlocks_append_lastBytes m, List.append_assoc, lastBytes_append_blocks (length_wholeBlocks m)]

/-- Compressing may stop after the whole blocks of `m` and go on with the bytes after them. -/
theorem compressAll_append_lastBytes (h : Vector Word 8) (m q : List Byte) :
    compressAll h (m ++ q) = compressAll (compressAll h m) (lastBytes m ++ q) := by
  have hlen := length_wholeBlocks m
  have hsplit := wholeBlocks_append_lastBytes m
  have hshort : (lastBytes m).length < 64 := by rw [length_lastBytes]; omega
  have hm : compressAll h m = compressAll h (m.take (64 * (m.length / 64))) := by
    conv_lhs => rw [← hsplit, compressAll_append_blocks _ _ hlen, compressAll_short _ _ hshort]
  rw [hm, ← compressAll_append_blocks _ _ hlen, ← List.append_assoc, hsplit]

/-! ## What a context holds (R132) -/

/-- The context holds the message `m`, absorbed from the initial constants: the chaining value of its whole blocks, the bytes
after them, and its length in bits modulo 2^64 (R132, R135). -/
structure State.HasAbsorbed (s : State) (m : List Byte) : Prop where
  h : s.h = compressAll iv m
  buffered : s.buffered = lastBytes m
  bitlen : s.bitlen = BitVec.ofNat 64 (8 * m.length)

/-- A context just opened has absorbed nothing (R131, R136). -/
theorem hasAbsorbed_performShaInit (s : State) : (performShaInit s).HasAbsorbed [] := ⟨rfl, rfl, rfl⟩

theorem State.HasAbsorbed.absorb {s : State} {m : List Byte} (hs : s.HasAbsorbed m) (d : List Byte) :
    (s.absorb d).HasAbsorbed (m ++ d) := by
  obtain ⟨hh, hbuf, -, hbits⟩ := s.absorb_spec d
  refine ⟨?_, ?_, ?_⟩
  · rw [hh, hs.h, hs.buffered, ← compressAll_append_lastBytes]
  · rw [hbuf, hs.buffered, lastBytes_append]
    rfl
  · rw [hbits, hs.bitlen, ← BitVec.ofNat_add, List.length_append, Nat.mul_add]

/-- Closing the context leaves the hash of the message in H (R133, R139). -/
theorem State.HasAbsorbed.padFinal_h {s : State} {m : List Byte} (hs : s.HasAbsorbed m) : s.padFinal.h = sha256 m := by
  have hcnt : s.bufcnt.toNat = m.length % 64 := by rw [← s.buffered_length, hs.buffered, length_lastBytes]
  show compressAll s.h (s.buffered ++ padding s.bufcnt.toNat s.bitlen) = _
  rw [hs.h, hs.buffered, hs.bitlen, hcnt, ← compressAll_append_lastBytes, sha256]

/-- Loading DIN leaves what the context holds (R98). -/
theorem State.HasAbsorbed.loadBytes {s : State} {m : List Byte} (hs : s.HasAbsorbed m) (bs : List Byte) :
    (s.loadBytes bs).HasAbsorbed m := by
  rw [State.loadBytes]
  generalize Vector.ofFn _ = din
  exact ⟨hs.h, hs.buffered, hs.bitlen⟩

/-- The operand of a command that takes all the bytes LOADB has left is those bytes (R98, R137). -/
theorem State.dinBytes_loadBytes (s : State) {c : List Byte} (hc : c.length ≤ 64) :
    (s.loadBytes c).dinBytes (BitVec.ofNat 7 c.length) = c := by
  have hlen : (BitVec.ofNat 7 c.length).toNat = c.length := by rw [BitVec.toNat_ofNat]; omega
  have hbytes : (bytesOf (s.loadBytes c).din.toList).length = 64 := by rw [length_bytesOf, Vector.length_toList]
  rw [State.dinBytes, hlen]
  apply List.ext_getElem (by rw [List.length_take, hbytes]; omega)
  intro j _ hj
  rw [List.getElem_take, ← List.getD_eq_getElem _ 0, s.loadBytes_din_getD hc (by omega), List.getD_eq_getElem _ _ hj]

/-- The completion steps of `LOADB c; DO SHA_UPDATE |c|` for each chunk c, in order (R139). -/
def State.updates (s : State) (cs : List (List Byte)) : State :=
  cs.foldl (fun s c => performShaUpdate (BitVec.ofNat 7 c.length) (s.loadBytes c)) s

/-- One chunk, and then the others: the chunk is absorbed. -/
theorem State.updates_cons (s : State) {c : List Byte} (hc : c.length ≤ 64) (cs : List (List Byte)) :
    s.updates (c :: cs) = ((s.loadBytes c).absorb c).updates cs := by
  rw [State.updates, List.foldl_cons, performShaUpdate, s.dinBytes_loadBytes hc, State.updates]

/-- The chunks of a message, each loaded by LOADB and absorbed by SHA_UPDATE, extend what the context holds (R139). -/
theorem State.HasAbsorbed.updates {s : State} {m : List Byte} (hs : s.HasAbsorbed m) {cs : List (List Byte)}
    (hc : ∀ c ∈ cs, c.length ≤ 64) :
    (s.updates cs).HasAbsorbed (m ++ cs.flatten) := by
  induction cs generalizing s m with
  | nil => rwa [List.flatten_nil, List.append_nil]
  | cons c cs ih =>
    obtain ⟨hhead, htail⟩ := List.forall_mem_cons.1 hc
    rw [s.updates_cons hhead, List.flatten_cons, ← List.append_assoc]
    exact ih ((hs.loadBytes c).absorb c) htail

/-- The completion steps of the one-shot hash leave the hash of the whole message in DIGEST (R139); a message of 2^61 bytes or more
has its length taken modulo 2^64 on both sides (R135). -/
theorem digest_of_streamed (s : State) {cs : List (List Byte)} (hc : ∀ c ∈ cs, c.length ≤ 64) :
    (performShaFinal ((performShaInit s).updates cs)).digest = sha256 cs.flatten :=
  ((hasAbsorbed_performShaInit s).updates hc).padFinal_h

/-- Settles O33: both chunkings give the hash of the same message. -/
theorem streamingEquivalence : Obligations.StreamingEquivalence := by
  intro s cs ds hcs hds hflat update
  calc _ = sha256 cs.flatten := digest_of_streamed s hcs
    _ = sha256 ds.flatten := by rw [hflat]
    _ = _ := (digest_of_streamed s hds).symm

/-! ## The host program (R139) -/

/-- The completion steps of the updates leave the context active, with no inner pass open, and nothing but it and DIN changed. -/
theorem updates_frame (s : State) (cs : List (List Byte)) :
    let t := (performShaInit s).updates cs
    t.shaState = .active ∧ t.hmacInner = false ∧ t.k0 = s.k0 ∧ t.rk = s.rk ∧ t.aesout = s.aesout := by
  intro t
  rw [show t = _ from foldl_update_frame cs (performShaInit s)]
  exact ⟨rfl, rfl, rfl, rfl, rfl⟩

/-- Whatever the latencies, a run of the program from an idle state performs its completion steps and reads DIGEST (R98, R139). -/
theorem exists_reached_sha256Program {s : State} {cs : List (List Byte)} (hb : s.busy = false) (hr : s.inReset = false)
    (hin : s.inputs = []) (hc : ∀ c ∈ cs, c.length ≤ 64) :
    let p := s.withProgram (sha256Program cs)
    let u := performShaFinal ((performShaInit p).updates cs)
    ∃ t, Reached p u t [] ∧ t.reads.take 8 = u.digest.toList.reverse := by
  intro p u
  have hinputs : p.inputs = (HostOp.doCmd .shaInit).expand ++ ((updateChunks cs).flatMap HostOp.expand ++
      ((HostOp.doCmd .shaFinal).expand ++ readDigest.flatMap HostOp.expand)) := by
    show s.inputs ++ _ = _
    rw [hin, sha256Program]
    simp
  obtain ⟨hactive, hinner, -⟩ := updates_frame p cs
  have h := Reached.start (s := p) hb hr
  rw [hinputs] at h
  obtain ⟨_, h⟩ := h.doCmd (by decide) rfl rfl rfl
  obtain ⟨_, h⟩ := Reached.updates decodeEncodeRoundTrip hc rfl h
  obtain ⟨_, h⟩ := h.doCmd (by decide) rfl rfl (State.seqOK_shaFinal hactive hinner)
  exact h.rdDigest

/-- Settles O34: the completion steps leave the hash of the message, and a run of the program performs them. -/
theorem streamedHashIsOneShotHash : Obligations.StreamedHashIsOneShotHash := by
  refine ⟨fun s cs hc _ => digest_of_streamed s hc, fun s cs hb hr hin hc _ => ?_⟩
  obtain ⟨t, h, hreads⟩ := exists_reached_sha256Program hb hr hin hc
  obtain ⟨-, hinner, hk0, hrk, haes⟩ := updates_frame (s.withProgram (sha256Program cs)) cs
  have hdigest := digest_of_streamed (s.withProgram (sha256Program cs)) hc
  obtain ⟨⟨n, hrun⟩, hblock, hidle, -, hrest, herr⟩ := h
  have hd : t.digest = sha256 cs.flatten := by rw [hblock]; exact hdigest
  refine ⟨n, t, hrun, hd, ?_, hrest, hidle, ?_, ?_, herr, ?_, ?_, ?_⟩
  · rw [hreads, hdigest, hd]
  all_goals rw [hblock]
  exacts [rfl, hinner, hk0, hrk, haes]

end Sys2Proof.Machine
end

section
/-! PROOFS, the HMAC wrapper (41_hmac.md R180 to R189): the key block, the two passes, the whole sequence with its host program,
and the key block during an open inner pass. -/

namespace Sys2Proof.Machine

/-! ## The key block (R180, R184, R185) -/

theorem keyBlock_getElem (m : Nat) (k : List Byte) (j : Fin 64) :
    (keyBlock m k)[j] = if j.val < m then k.getD j.val 0 else 0 :=
  Vector.getElem_ofFn j.isLt

/-- The operand of HMAC_KEY holds the first LEN bytes of DIN (R64, R184). -/
theorem State.dinBytes_getD (s : State) {len : BitVec 7} {j : Nat} (hj : j < 64) (hlen : j < len.toNat) :
    (s.dinBytes len).getD j 0 = wordByte s.din[j / 4] (j % 4) := by
  have hword := bytesOf_getD s.din.toList (j := j) (by rw [Vector.length_toList]; omega)
  rw [List.getD_eq_getElem?_getD] at hword
  rw [State.dinBytes, List.getD_eq_getElem?_getD, List.getElem?_take_of_lt hlen, hword, Vector.getElem_toList]

/-- HMAC_KEY is in sequence where no inner pass is open (R287). -/
theorem State.seqOK_hmacKey {s : State} (len : BitVec 7) (hinner : s.hmacInner = false) : s.seqOK (.hmacKey len) = true := by
  simp [State.seqOK, hinner]

/-- Settles O22: the completion writes K0 alone, byte by byte from the operand. -/
theorem hmacKeyLoadsPaddedKey : Obligations.HmacKeyLoadsPaddedKey := by
  intro s len l hb hlen hinner hl
  refine ⟨_, exec_of_latency_zero (by simp) hb (decide_eq_true hlen) (State.seqOK_hmacKey len hinner) hl, rfl, fun j => ?_⟩
  refine (keyBlock_getElem len.toNat (s.dinBytes len) j).trans ?_
  split
  next hj => exact s.dinBytes_getD j.isLt hj
  next => rfl

/-- Settles O23: the completion writes K0 alone, byte by byte from DIGEST. -/
theorem hmacKeyDigestLoadsDigest : Obligations.HmacKeyDigestLoadsDigest := by
  intro s l hb hfinal hl
  refine ⟨_, exec_of_latency_zero (by decide) hb rfl (decide_eq_true hfinal) hl, rfl, fun j => ?_⟩
  refine (keyBlock_getElem 32 s.digestBytes j).trans ?_
  split
  next hj =>
    rw [State.digestBytes, bytesOf_getD _ (by rw [Vector.length_toList]; omega), Vector.getElem_toList]
  next => rfl

/-! ## The two passes (R182, R186, R187) -/

/-- A pad is the bytes of one block. -/
theorem xorPad_eq_toList (k0 : Vector Byte 64) (c : Byte) : xorPad k0 c = (k0.map fun b => b ^^^ c).toList :=
  Vector.toList_map.symm

theorem length_xorPad (k0 : Vector Byte 64) (c : Byte) : (xorPad k0 c).length = 64 := by
  simp [xorPad]

/-- A context just opened has absorbed nothing (R131). -/
theorem hasAbsorbed_ctxInit (s : State) : s.ctxInit.HasAbsorbed [] := ⟨rfl, rfl, rfl⟩

/-- HMAC_START opens the inner pass: the context holds the inner pad (R186). -/
theorem hasAbsorbed_performHmacStart (s : State) : (performHmacStart s).HasAbsorbed (ipad s.k0) := by
  obtain ⟨hh, hbuf, hbits⟩ := (hasAbsorbed_ctxInit s).absorb (ipad s.k0)
  exact ⟨hh, hbuf, hbits⟩

/-- Compressing one block given as bytes. -/
theorem compressAll_toList (h : Vector Word 8) (b : Vector Byte 64) : compressAll h b.toList = compress h b := by
  rw [(compressAll_final h b.toList).1 (by simp), blockOf_toList]

/-- The inner pass, opened: its first block is compressed at once and leaves the buffer empty (R186). -/
theorem performHmacStart_eq (s : State) :
    performHmacStart s = { s with
      h := compress iv (s.k0.map fun b => b ^^^ 0x36), buf := (performHmacStart s).buf, bufcnt := 0, bitlen := 512
      shaState := .active, hmacInner := true } := by
  obtain ⟨hh, -, hcnt, hbits⟩ := s.ctxInit.absorb_spec (ipad s.k0)
  have hblock : (s.ctxInit.absorb (ipad s.k0)).h = compress iv (s.k0.map fun b => b ^^^ 0x36) := by
    rw [← compressAll_toList, ← xorPad_eq_toList]
    exact hh
  have hempty : (s.ctxInit.absorb (ipad s.k0)).bufcnt = 0 := by
    apply BitVec.eq_of_toNat_eq
    rw [hcnt, ipad, length_xorPad, State.ctxInit_bufcnt]
    rfl
  have hlen : (s.ctxInit.absorb (ipad s.k0)).bitlen = 512 := by
    rw [hbits, ipad, length_xorPad]
    rfl
  rw [performHmacStart, State.absorb_frame, hblock, hempty, hlen]
  rfl

/-- Settles O24: the completion opens the inner pass. -/
theorem hmacStartAbsorbsInnerPad : Obligations.HmacStartAbsorbsInnerPad := by
  intro s l hb hl
  exact ⟨_, exec_of_latency_zero (by decide) hb rfl rfl hl, performHmacStart_eq { s with latencies := l }⟩

/-- The outer pass hashes the outer pad followed by the inner digest (R187). -/
theorem State.outerPass_eq (s : State) (inner : List Byte) :
    s.outerPass inner = { s with
      h := sha256 (opad s.k0 ++ inner), buf := (s.outerPass inner).buf, bufcnt := 0
      bitlen := BitVec.ofNat 64 (8 * (64 + inner.length)), shaState := .active } := by
  have hheld := ((hasAbsorbed_ctxInit s).absorb (opad s.k0)).absorb inner
  have hframe : s.outerPass inner = { s with
      h := (s.outerPass inner).h, buf := (s.outerPass inner).buf, bufcnt := 0
      bitlen := ((s.ctxInit.absorb (opad s.k0)).absorb inner).bitlen, shaState := .active } := by
    ext1 <;> simp [State.outerPass]
  have hh : (s.outerPass inner).h = sha256 (opad s.k0 ++ inner) := hheld.padFinal_h
  have hlen : (opad s.k0 ++ inner).length = 64 + inner.length := by rw [List.length_append, opad, length_xorPad]
  rw [hheld.bitlen, List.nil_append, hlen, hh] at hframe
  exact hframe

/-- The tag: the hash of the outer pad followed by the digest of the pass that is open (R187). -/
def State.outerHash (s : State) : Vector Word 8 := sha256 (opad s.k0 ++ bytesOf s.padFinal.h.toList)

/-- HMAC_FINISH publishes the tag, closes the context and clears the key block (R187). -/
theorem performHmacFinish_eq (s : State) :
    performHmacFinish s = { s with
      h := s.outerHash, digest := s.outerHash, buf := (performHmacFinish s).buf, bufcnt := 0, bitlen := 768
      shaState := .final, hmacInner := false, k0 := Vector.replicate 64 0 } := by
  have hinner : (bytesOf s.padFinal.h.toList).length = 32 := by rw [length_bytesOf, Vector.length_toList]
  rw [performHmacFinish, State.outerPass_eq, hinner]
  rfl

/-- Settles O25: the inner pass is closed as SHA_FINAL closes a hash. -/
theorem hmacFinishPublishesTag : Obligations.HmacFinishPublishesTag := by
  intro s l hb hinner hl n p inner tag
  have htag : tag = s.outerHash := by
    have hclosed : inner = s.padFinal.h := by rw [State.padFinal_h, s.compressAll_finalBytes, s.finalBytes_eq]
    rw [State.outerHash, opad, xorPad_eq_toList, ← hclosed]
  refine ⟨_, exec_of_latency_zero (by decide) hb rfl hinner hl, ?_⟩
  rw [htag]
  exact performHmacFinish_eq { s with latencies := l }

/-! ## The whole sequence (R183, R188) -/

/-! LOADB writes DIN alone (R98). -/

@[simp] theorem State.loadBytes_rk (s : State) (bs : List Byte) : (s.loadBytes bs).rk = s.rk := by rw [State.loadBytes]
@[simp] theorem State.loadBytes_aesout (s : State) (bs : List Byte) : (s.loadBytes bs).aesout = s.aesout := by
  rw [State.loadBytes]
@[simp] theorem State.loadBytes_hmacInner (s : State) (bs : List Byte) : (s.loadBytes bs).hmacInner = s.hmacInner := by
  rw [State.loadBytes]

/-- The completion steps of the key load: by HMAC_KEY up to 64 bytes, else through the digest (R188). -/
def State.loadKey (s : State) (ks : List (List Byte)) : State :=
  if ks.flatten.length ≤ 64 then performHmacKey (BitVec.ofNat 7 ks.flatten.length) (s.loadBytes ks.flatten)
  else performHmacKeyDigest (performShaFinal ((performShaInit s).updates ks))

/-- Either way K0 becomes the key block of the key (R180, R181). -/
theorem State.loadKey_k0 (s : State) {ks : List (List Byte)} (hc : ∀ c ∈ ks, c.length ≤ 64) :
    (s.loadKey ks).k0 = normalizeKey ks.flatten := by
  unfold State.loadKey normalizeKey
  split
  next hshort =>
    have hlen : (BitVec.ofNat 7 ks.flatten.length).toNat = ks.flatten.length := by rw [BitVec.toNat_ofNat]; omega
    rw [performHmacKey, s.dinBytes_loadBytes hshort, hlen]
  next => rw [performHmacKeyDigest, State.digestBytes, digest_of_streamed s hc]

theorem State.loadKey_frame (s : State) (ks : List (List Byte)) :
    (s.loadKey ks).rk = s.rk ∧ (s.loadKey ks).aesout = s.aesout := by
  unfold State.loadKey
  split
  next => simp [performHmacKey]
  next =>
    obtain ⟨-, -, -, hrk, haes⟩ := updates_frame s ks
    exact ⟨hrk, haes⟩

/-- The completion steps of HMAC_START and the updates of a message (R186, R188). -/
def State.innerPass (s : State) (ms : List (List Byte)) : State := (performHmacStart s).updates ms

/-- The inner pass is then open, with the key block it was started with (R186, R187). -/
theorem State.innerPass_frame (s : State) (ms : List (List Byte)) :
    (s.innerPass ms).hmacInner = true ∧ (s.innerPass ms).k0 = s.k0 ∧ (s.innerPass ms).rk = s.rk ∧
      (s.innerPass ms).aesout = s.aesout := by
  rw [show s.innerPass ms = _ from foldl_update_frame ms (performHmacStart s), performHmacStart_eq]
  exact ⟨rfl, rfl, rfl, rfl⟩

/-- HMAC_FINISH after the inner pass publishes the tag of the message under the key block (R183, R187). -/
theorem digest_of_innerPass (s : State) {ms : List (List Byte)} (hm : ∀ c ∈ ms, c.length ≤ 64) :
    (performHmacFinish (s.innerPass ms)).digest = hmacTag s.k0 ms.flatten := by
  have hheld : (s.innerPass ms).HasAbsorbed (ipad s.k0 ++ ms.flatten) := (hasAbsorbed_performHmacStart s).updates hm
  obtain ⟨-, hk0, -, -⟩ := s.innerPass_frame ms
  calc (performHmacFinish (s.innerPass ms)).digest = (s.innerPass ms).outerHash := by rw [performHmacFinish_eq]
    _ = hmacTag s.k0 ms.flatten := by rw [State.outerHash, hheld.padFinal_h, hk0, hmacTag]

/-- The completion steps of the HMAC sequence leave HMAC(key, msg) in DIGEST (R188); lengths are taken modulo 2^64 bits on both
sides (R135). -/
theorem digest_of_hmacSequence (s : State) {ks ms : List (List Byte)} (hk : ∀ c ∈ ks, c.length ≤ 64)
    (hm : ∀ c ∈ ms, c.length ≤ 64) :
    (performHmacFinish ((s.loadKey ks).innerPass ms)).digest = hmacSha256 ks.flatten ms.flatten := by
  rw [digest_of_innerPass _ hm, s.loadKey_k0 hk, hmacSha256]

/-- What the sequence leaves beside the tag: a closed context, no key block, RK and AESOUT (R187, R227). -/
theorem hmacSequence_frame (s : State) (ks ms : List (List Byte)) :
    let u := performHmacFinish ((s.loadKey ks).innerPass ms)
    u.shaState = .final ∧ u.hmacInner = false ∧ u.k0 = Vector.replicate 64 0 ∧ u.rk = s.rk ∧ u.aesout = s.aesout := by
  intro u
  obtain ⟨hrk, haes⟩ := s.loadKey_frame ks
  obtain ⟨-, -, hrk', haes'⟩ := (s.loadKey ks).innerPass_frame ms
  rw [show u = _ from performHmacFinish_eq ((s.loadKey ks).innerPass ms)]
  exact ⟨rfl, rfl, rfl, hrk'.trans hrk, haes'.trans haes⟩

/-! ## The host program (R188) -/

/-- The key load in a run (R188): HMAC_KEY is admitted where no inner pass is open, and the hash of a longer key closes one. -/
theorem Reached.loadKey {s u t : State} {ks : List (List Byte)} {rest : List HostInput}
    (hinner : u.hmacInner = false ∨ 64 < ks.flatten.length) (hc : ∀ c ∈ ks, c.length ≤ 64)
    (h : Reached s u t ((hmacKeyProgram ks).flatMap HostOp.expand ++ rest)) : ∃ w, Reached s (u.loadKey ks) w rest := by
  unfold hmacKeyProgram at h
  unfold State.loadKey
  split at h
  next hshort =>
    have hlen : (BitVec.ofNat 7 ks.flatten.length).toNat = ks.flatten.length := by rw [BitVec.toNat_ofNat]; omega
    have hw : (Instr.hmacKey (BitVec.ofNat 7 ks.flatten.length)).wellFormed = true := decide_eq_true (by omega)
    have hidle : u.hmacInner = false := hinner.resolve_right (by omega)
    obtain ⟨_, h⟩ := Reached.loadb (bs := ks.flatten)
      (rest := (HostOp.doCmd (.hmacKey (BitVec.ofNat 7 ks.flatten.length))).expand ++ rest) (by simpa using h) hshort
    rw [if_pos hshort]
    exact h.doCmd (by simp) (decodeEncodeRoundTrip _ hw) hw (State.seqOK_hmacKey _ (by simpa using hidle))
  next hlong =>
    obtain ⟨hactive, hclosed, -⟩ := updates_frame u ks
    replace h : Reached s u t ((HostOp.doCmd .shaInit).expand ++ ((updateChunks ks).flatMap HostOp.expand ++
        ((HostOp.doCmd .shaFinal).expand ++ ((HostOp.doCmd .hmacKeyDigest).expand ++ rest)))) := by simpa using h
    rw [if_neg hlong]
    obtain ⟨_, h⟩ := h.doCmd (by decide) rfl rfl rfl
    obtain ⟨_, h⟩ := Reached.updates decodeEncodeRoundTrip hc rfl h
    obtain ⟨_, h⟩ := h.doCmd (by decide) rfl rfl (State.seqOK_shaFinal hactive hclosed)
    exact h.doCmd (by decide) rfl rfl rfl

/-- Whatever the latencies, a run of the program from an idle state performs its completion steps and reads DIGEST (R98, R188). -/
theorem exists_reached_hmacProgram {s : State} {ks ms : List (List Byte)} (hb : s.busy = false) (hr : s.inReset = false)
    (hin : s.inputs = []) (hinner : s.hmacInner = false ∨ 64 < ks.flatten.length)
    (hk : ∀ c ∈ ks, c.length ≤ 64) (hm : ∀ c ∈ ms, c.length ≤ 64) :
    let p := s.withProgram (hmacProgram ks ms)
    let u := performHmacFinish ((p.loadKey ks).innerPass ms)
    ∃ t, Reached p u t [] ∧ t.reads.take 8 = u.digest.toList.reverse := by
  intro p u
  have hinputs : p.inputs = (hmacKeyProgram ks).flatMap HostOp.expand ++ ((HostOp.doCmd .hmacStart).expand ++
      ((updateChunks ms).flatMap HostOp.expand ++
        ((HostOp.doCmd .hmacFinish).expand ++ readDigest.flatMap HostOp.expand))) := by
    show s.inputs ++ _ = _
    rw [hin, hmacProgram]
    simp
  obtain ⟨hopen, -⟩ := (p.loadKey ks).innerPass_frame ms
  have h := Reached.start (s := p) hb hr
  rw [hinputs] at h
  obtain ⟨_, h⟩ := Reached.loadKey (u := p) hinner hk h
  obtain ⟨_, h⟩ := h.doCmd (by decide) rfl rfl rfl
  obtain ⟨_, h⟩ := Reached.updates decodeEncodeRoundTrip hm (by simp) h
  obtain ⟨_, h⟩ := h.doCmd (by decide) rfl rfl hopen
  exact h.rdDigest

/-- Settles O35: the completion steps leave the tag of the message, and a run of the program performs them. -/
theorem hmacSequenceIsHmac : Obligations.HmacSequenceIsHmac := by
  refine ⟨?_, fun s ks ms hb hr hin hinner hk hm _ _ => ?_⟩
  · rintro s _ ks ms hk hm rfl _ _
    exact digest_of_hmacSequence s hk hm
  obtain ⟨t, h, hreads⟩ := exists_reached_hmacProgram hb hr hin hinner hk hm
  have hdigest := digest_of_hmacSequence (s.withProgram (hmacProgram ks ms)) hk hm
  obtain ⟨hfinal, hclosed, hk0, hrk, haes⟩ := hmacSequence_frame (s.withProgram (hmacProgram ks ms)) ks ms
  obtain ⟨⟨n, hrun⟩, hblock, hidle, -, hrest, herr⟩ := h
  have hd : t.digest = hmacSha256 ks.flatten ms.flatten := by rw [hblock]; exact hdigest
  refine ⟨n, t, hrun, hd, ?_, hrest, hidle, ?_, ?_, herr, ?_, ?_, ?_⟩
  · rw [hreads, hdigest, hd]
  all_goals rw [hblock]
  exacts [hfinal, hclosed, hk0, hrk, haes]

/-! ## The key block during an open inner pass (R187, R189) -/

/-- A completion step whose sequence condition holds leaves K0 where the inner pass is open before and after it: HMAC_KEY is not
admitted in one, HMAC_KEY_DIGEST only after a hash is closed, and HMAC_FINISH ends it. -/
theorem perform_k0_of_inner {i : Instr} {s : State} (hs : s.Inv) (hq : s.seqOK i = true) (hinner : s.hmacInner = true)
    (hopen : (perform i s).hmacInner = true) : (perform i s).k0 = s.k0 := by
  cases i with
  | hmacKey len => simp [State.seqOK, hinner] at hq
  | hmacKeyDigest => simp [State.seqOK, hs.inner_active hinner] at hq
  | hmacFinish => cases hopen
  | _ => simp

/-- Acceptance of an admitted command leaves K0 where the inner pass stays open. -/
theorem State.accept_k0_of_inner {i : Instr} {s : State} (hs : s.Inv) (hq : s.seqOK i = true) (hinner : s.hmacInner = true)
    (hopen : (s.accept i (perform i)).hmacInner = true) : (s.accept i (perform i)).k0 = s.k0 := by
  rcases s.accept_cases i (perform i) with ⟨-, h⟩ | ⟨n, -, h⟩ <;> rw [h] at hopen ⊢
  · have hk := perform_k0_of_inner hs.takeLatency (by rwa [State.seqOK_takeLatency]) (by simpa using hinner) hopen
    rw [hk, State.takeLatency_k0]
  · simp

/-- Of the writes that the bus admits, only a command could change K0. -/
theorem State.writeReg_k0_of_inner {r : Reg} {v : Word} {s t : State} (hs : s.Inv) (hinner : s.hmacInner = true)
    (h : s.writeReg r v = .next t) (hopen : t.hmacInner = true) : t.k0 = s.k0 := by
  rcases State.writeReg_next h with ⟨-, hc⟩ | ⟨k, -, -, rfl⟩ | ⟨k, rfl⟩ | rfl | rfl
  · rcases issueCommand_next hc with ⟨c, rfl⟩ | rfl | ⟨i, -, -, -, -, hq, rfl⟩
    · rfl
    · rfl
    · exact State.accept_k0_of_inner hs hq hinner hopen
  all_goals rfl

/-- Settles O47: a completion step, an admitted write and reset are all that could change K0, and reset ends the inner pass. -/
theorem keyBlockFixedDuringInnerPass : Obligations.KeyBlockFixedDuringInnerPass := by
  intro s t hs hinner h hopen
  rcases step_next h with ⟨i, hp, -, -, rfl⟩ | rfl | ⟨i, rest, -, ht⟩
  · obtain ⟨-, hq, -⟩ := hs.pend_admitted i hp
    exact perform_k0_of_inner hs hq hinner hopen
  · rfl
  · rcases takeInput_next ht with ⟨w, l, rfl⟩ | ⟨off, v, -, -, -, hw⟩ | ⟨-, ⟨b, rfl⟩ | rfl⟩
    · rfl
    · have hk := State.writeReg_k0_of_inner (hs.tick.setInputs rest) hinner hw hopen
      exact hk
    · cases hopen
    · rfl

end Sys2Proof.Machine
end

section
/-! PROOFS, the AES field (42_aes128.md R211 to R214): multiplication in GF(2^8), the two S-boxes and the round constants. -/

namespace Sys2Proof.Machine

/-! ## Multiplication (R211) -/

theorem xtime_xor (a b : Byte) : xtime (a ^^^ b) = xtime a ^^^ xtime b := by
  have hcarry : (if a.msb ^^ b.msb then 0x1b else 0 : Byte) =
      (if a.msb then 0x1b else 0) ^^^ (if b.msb then 0x1b else 0) := by
    cases a.msb <;> cases b.msb <;> rfl
  rw [xtime, BitVec.msb_xor, hcarry, BitVec.shiftLeft_xor_distrib, xtime, xtime]
  ac_rfl

theorem xtimePow_xor (n : Nat) (a b : Byte) : xtimePow n (a ^^^ b) = xtimePow n a ^^^ xtimePow n b := by
  induction n with
  | zero => rfl
  | succ n ih => rw [xtimePow, ih, xtime_xor, xtimePow, xtimePow]

/-- The contribution of bit `i` of `b` to the product (R211). -/
def gmulTerm (a b : Byte) (i : Nat) : Byte := if b.getLsbD i then xtimePow i a else 0

theorem gmul_eq_foldl (a b : Byte) : gmul a b = (List.range 8).foldl (fun acc i => acc ^^^ gmulTerm a b i) 0 := rfl

theorem gmulTerm_xor (x y c : Byte) (i : Nat) : gmulTerm (x ^^^ y) c i = gmulTerm x c i ^^^ gmulTerm y c i := by
  unfold gmulTerm
  split
  · exact xtimePow_xor i x y
  · rfl

theorem gmul_xor_left (x y c : Byte) : gmul (x ^^^ y) c = gmul x c ^^^ gmul y c := by
  simp only [gmul_eq_foldl, gmulTerm_xor]
  exact List.foldl_hom₂ _ (· ^^^ ·) (fun acc i => acc ^^^ gmulTerm x c i) (fun acc i => acc ^^^ gmulTerm y c i)
    (fun acc i => acc ^^^ (gmulTerm x c i ^^^ gmulTerm y c i)) 0 0 fun a b i => by ac_rfl

/-- What the maps commuting with addition and with `xtime` do to a product: they act on its first factor. -/
theorem map_gmul {f : Byte → Byte} (hxor : ∀ a b, f (a ^^^ b) = f a ^^^ f b) (hxtime : ∀ a, f (xtime a) = xtime (f a))
    (x c : Byte) : f (gmul x c) = gmul (f x) c := by
  have hzero : f 0 = 0 := by simpa using hxor 0 0
  have hpow (i : Nat) : f (xtimePow i x) = xtimePow i (f x) := by
    induction i with
    | zero => rfl
    | succ i ih => rw [xtimePow, hxtime, ih, xtimePow]
  have hterm (i : Nat) : f (gmulTerm x c i) = gmulTerm (f x) c i := by
    rw [gmulTerm, apply_ite f, hpow, hzero, gmulTerm]
  have hfold := List.foldl_hom f (g₁ := fun acc i => acc ^^^ gmulTerm x c i) (g₂ := fun acc i => acc ^^^ gmulTerm (f x) c i)
    (l := List.range 8) (init := 0) fun acc i => by rw [hxor, hterm]
  rw [hzero] at hfold
  exact hfold.symm

theorem xtime_gmul (x c : Byte) : xtime (gmul x c) = gmul (xtime x) c :=
  map_gmul xtime_xor (fun _ => rfl) x c

theorem gmul_right_comm (x b c : Byte) : gmul (gmul x b) c = gmul (gmul x c) b :=
  map_gmul (f := (gmul · c)) (fun x y => gmul_xor_left x y c) (fun a => (xtime_gmul a c).symm) x b

theorem one_gmul (b : Byte) : gmul 1 b = b := by
  revert b
  decide +kernel

theorem gmul_comm (a b : Byte) : gmul a b = gmul b a := by
  have h := gmul_right_comm 1 a b
  rwa [one_gmul, one_gmul] at h

theorem gmul_assoc (a b c : Byte) : gmul (gmul a b) c = gmul a (gmul b c) := by
  rw [gmul_comm a b, gmul_right_comm, gmul_comm]

theorem gmul_xor_right (a x y : Byte) : gmul a (x ^^^ y) = gmul a x ^^^ gmul a y := by
  rw [gmul_comm, gmul_xor_left, gmul_comm x, gmul_comm y]

theorem gmul_one (b : Byte) : gmul b 1 = b := by rw [gmul_comm, one_gmul]

theorem gmul_zero (b : Byte) : gmul b 0 = 0 := by simpa using gmul_xor_right b 0 0

theorem gmul_two (b : Byte) : gmul b 2 = xtime b := by
  rw [gmul_comm, show (2 : Byte) = xtime 1 from rfl, ← xtime_gmul, one_gmul]

theorem gmul_three (b : Byte) : gmul b 3 = xtime b ^^^ b := by
  rw [show (3 : Byte) = 2 ^^^ 1 from rfl, gmul_xor_right, gmul_two, gmul_one]

/-- Settles O38: the products commute as all do, and the powers of xtime from 1 are the round constants. -/
theorem fieldMultiplicationAndRoundConstants : Obligations.FieldMultiplicationAndRoundConstants :=
  ⟨fun b c _ => gmul_comm b c, fun b => ⟨gmul_one b, gmul_two b, gmul_three b⟩, rfl, by decide⟩

/-! ## The S-boxes (R212, R213) -/

theorem invSbox_sbox (x : Byte) : invSbox (sbox x) = x := by
  revert x
  decide +kernel

theorem sbox_invSbox (x : Byte) : sbox (invSbox x) = x := by
  revert x
  decide +kernel

/-- Settles O37: each table is looked up at each entry of the other. -/
theorem inverseSboxInvertsSbox : Obligations.InverseSboxInvertsSbox :=
  fun x => ⟨invSbox_sbox x, sbox_invSbox x⟩

/-- The byte that the affine map of R212 takes to `y`. -/
def affinePreimage (y : Byte) : Byte := y.rotateLeft 1 ^^^ y.rotateLeft 3 ^^^ y.rotateLeft 6 ^^^ 0x05

/-- The affine map of R212, at each bit. -/
theorem getLsbD_of_affinePreimage (y : Byte) (i : Fin 8) :
    y.getLsbD i.val = ((affinePreimage y).getLsbD i.val ^^ (affinePreimage y).getLsbD ((i.val + 4) % 8) ^^
      (affinePreimage y).getLsbD ((i.val + 5) % 8) ^^ (affinePreimage y).getLsbD ((i.val + 6) % 8) ^^
      (affinePreimage y).getLsbD ((i.val + 7) % 8) ^^ (0x63 : Byte).getLsbD i.val) := by
  revert y i
  decide +kernel

/-- The entry of the S-box at `x` comes from the inverse of `x` (R212). -/
theorem gmul_affinePreimage_sbox (x : Byte) :
    if x = 0 then affinePreimage (sbox x) = 0 else gmul x (affinePreimage (sbox x)) = 1 := by
  revert x
  decide +kernel

/-- Settles O36: the inverse is found from the entry, by undoing the affine map. -/
theorem sboxIsAffineOfInverse : Obligations.SboxIsAffineOfInverse := fun x =>
  ⟨affinePreimage (sbox x), gmul_affinePreimage_sbox x, getLsbD_of_affinePreimage (sbox x)⟩

end Sys2Proof.Machine
end

section
/-! PROOFS, the AES transformations (42_aes128.md R210, R216 to R226, R229): what each does to a byte of the state, and that each
is undone by its inverse, so that decryption and encryption undo each other. -/

namespace Sys2Proof.Machine

/-! ## What a transformation does to a byte (R210, R216 to R223) -/

/-- The byte of a column in row `r`. -/
def AesColumn.byte (k : AesColumn) (r : Nat) : Byte := [k.r0, k.r1, k.r2, k.r3].getD r 0

/-- Column `c` of the state. -/
def AesBlock.column (s : AesBlock) (c : Nat) : AesColumn := [s.c0, s.c1, s.c2, s.c3].getD c s.c0

theorem AesBlock.column_mapColumns (f : AesColumn → AesColumn) (s : AesBlock) (c : Fin 4) :
    (s.mapColumns f).column c.val = f (s.column c.val) := by
  fin_cases c <;> rfl

theorem AesColumn.byte_mapBytes (f : Byte → Byte) (k : AesColumn) (r : Fin 4) :
    (k.mapBytes f).byte r.val = f (k.byte r.val) := by
  fin_cases r <;> rfl

theorem byte_columnOf (w : Word) (r : Fin 4) : (columnOf w).byte r.val = BitVec.ofNat 8 (w.toNat / 2 ^ (24 - 8 * r.val)) := by
  rw [← wordByte_eq_ofNat]
  fin_cases r <;> rfl

theorem byte_xorColumn (a b : AesColumn) (r : Fin 4) : (xorColumn a b).byte r.val = a.byte r.val ^^^ b.byte r.val := by
  fin_cases r <;> rfl

theorem column_loadBlock (w : Vector Word 4) (c : Fin 4) : (loadBlock w).column c.val = columnOf w[c] := by
  fin_cases c <;> rfl

theorem getElem_unloadBlock (s : AesBlock) (c : Fin 4) : (unloadBlock s)[c] = (s.column c.val).word := by
  fin_cases c <;> rfl

theorem column_addRoundKey (rk : Vector Word 44) (k : Fin 11) (s : AesBlock) (c : Fin 4) :
    (addRoundKey rk k s).column c.val = xorColumn (s.column c.val) (columnOf (rk[4 * k.val + c.val]'(by omega))) := by
  fin_cases c <;> rfl

theorem byte_shiftRows (s : AesBlock) (r c : Fin 4) :
    ((shiftRows s).column c.val).byte r.val = (s.column ((c.val + r.val) % 4)).byte r.val := by
  fin_cases r <;> fin_cases c <;> rfl

theorem byte_invShiftRows (s : AesBlock) (r c : Fin 4) :
    ((invShiftRows s).column c.val).byte r.val = (s.column ((c.val + 4 - r.val) % 4)).byte r.val := by
  fin_cases r <;> fin_cases c <;> rfl

/-! ## The matrices of MixColumns and InvMixColumns (R218, R223) -/

/-- The product of the circulant matrix with first row `a b c d` and a column. -/
def circulant (a b c d : Byte) (k : AesColumn) : AesColumn :=
  { r0 := gmul k.r0 a ^^^ gmul k.r1 b ^^^ gmul k.r2 c ^^^ gmul k.r3 d
    r1 := gmul k.r0 d ^^^ gmul k.r1 a ^^^ gmul k.r2 b ^^^ gmul k.r3 c
    r2 := gmul k.r0 c ^^^ gmul k.r1 d ^^^ gmul k.r2 a ^^^ gmul k.r3 b
    r3 := gmul k.r0 b ^^^ gmul k.r1 c ^^^ gmul k.r2 d ^^^ gmul k.r3 a }

theorem mixColumn_eq_circulant (k : AesColumn) : mixColumn k = circulant 0x02 0x03 0x01 0x01 k := by
  simp only [mixColumn, circulant, gmul_one]

theorem invMixColumn_eq_circulant (k : AesColumn) : invMixColumn k = circulant 0x0e 0x0b 0x0d 0x09 k := rfl

/-- The rows of a circulant are its first row, rotated. -/
theorem byte_circulant (a b c d : Byte) (k : AesColumn) (r : Fin 4) :
    (circulant a b c d k).byte r.val =
      gmul ([a, b, c, d].getD ((4 - r.val) % 4) 0) (k.byte 0) ^^^ gmul ([a, b, c, d].getD ((5 - r.val) % 4) 0) (k.byte 1) ^^^
      gmul ([a, b, c, d].getD ((6 - r.val) % 4) 0) (k.byte 2) ^^^ gmul ([a, b, c, d].getD ((7 - r.val) % 4) 0) (k.byte 3) := by
  simp only [gmul_comm _ (k.byte _)]
  fin_cases r <;> rfl

/-- The product of two circulants is the circulant whose first row is the product of the first row of one and the other. -/
theorem circulant_circulant (a b c d a' b' c' d' : Byte) (k : AesColumn) :
    circulant a b c d (circulant a' b' c' d' k) =
      circulant (gmul a' a ^^^ gmul d' b ^^^ gmul c' c ^^^ gmul b' d) (gmul b' a ^^^ gmul a' b ^^^ gmul d' c ^^^ gmul c' d)
        (gmul c' a ^^^ gmul b' b ^^^ gmul a' c ^^^ gmul d' d) (gmul d' a ^^^ gmul c' b ^^^ gmul b' c ^^^ gmul a' d) k := by
  simp only [circulant, gmul_xor_left, gmul_xor_right, gmul_assoc, AesColumn.mk.injEq]
  refine ⟨?_, ?_, ?_, ?_⟩ <;> ac_rfl

theorem circulant_one (k : AesColumn) : circulant 1 0 0 0 k = k := by
  simp only [circulant, gmul_one, gmul_zero]
  simp

theorem invMixColumn_mixColumn (k : AesColumn) : invMixColumn (mixColumn k) = k := by
  rw [mixColumn_eq_circulant, invMixColumn_eq_circulant, circulant_circulant]
  exact circulant_one k

theorem mixColumn_invMixColumn (k : AesColumn) : mixColumn (invMixColumn k) = k := by
  rw [mixColumn_eq_circulant, invMixColumn_eq_circulant, circulant_circulant]
  exact circulant_one k

/-- Settles O40: the two circulants multiply to the unit matrix, in either order. -/
theorem invMixColumnsInvertsMixColumns : Obligations.InvMixColumnsInvertsMixColumns :=
  fun k => ⟨invMixColumn_mixColumn k, mixColumn_invMixColumn k⟩

/-- Settles O39: each transformation is first what it does to a column, then what that does to a byte. -/
theorem aesTransformationsByteByByte : Obligations.AesTransformationsByteByByte := by
  intro s w rk k r c byte rowTimesColumn
  have hbyte (x : AesBlock) (row col : Nat) : byte x row col = (x.column col).byte row := rfl
  have hmix (f : AesColumn → AesColumn) : byte (s.mapColumns f) r.val c.val = (f (s.column c.val)).byte r.val := by
    rw [hbyte, s.column_mapColumns]
  have hsub (f : Byte → Byte) : byte (s.mapColumns (AesColumn.mapBytes f)) r.val c.val = f (byte s r.val c.val) := by
    rw [hmix, AesColumn.byte_mapBytes, hbyte]
  refine ⟨?_, getElem_unloadBlock s c, hsub sbox, byte_shiftRows s r c, ?_, ?_, hsub invSbox, byte_invShiftRows s r c, ?_⟩
  · rw [hbyte, column_loadBlock, byte_columnOf]
  · exact (hmix mixColumn).trans (by rw [mixColumn_eq_circulant]; exact byte_circulant _ _ _ _ (s.column c.val) r)
  · rw [hbyte, column_addRoundKey, byte_xorColumn, byte_columnOf, hbyte]
  · exact (hmix invMixColumn).trans (byte_circulant _ _ _ _ (s.column c.val) r)

/-! ## Loading and unloading (R210) -/

theorem AesColumn.toNat_word (k : AesColumn) :
    k.word.toNat = ((k.r0.toNat * 256 + k.r1.toNat) * 256 + k.r2.toNat) * 256 + k.r3.toNat := by
  simp only [AesColumn.word, be32, toNat_append_eq, Nat.reducePow]

/-- The bytes of a column's word are the column's (R210). -/
theorem columnOf_word (k : AesColumn) : columnOf k.word = k := by
  have hr1 := k.r1.isLt
  have hr2 := k.r2.isLt
  have hr3 := k.r3.isLt
  have hbyte (j : Nat) (b : Byte) (h : k.word.toNat / 2 ^ (24 - 8 * j) % 2 ^ 8 = b.toNat) : wordByte k.word j = b := by
    rw [wordByte_eq_ofNat]
    exact BitVec.eq_of_toNat_eq ((BitVec.toNat_ofNat _ _).trans h)
  rw [k.toNat_word] at hbyte
  rw [columnOf, hbyte 0 k.r0, hbyte 1 k.r1, hbyte 2 k.r2, hbyte 3 k.r3]
  all_goals omega

theorem word_columnOf (w : Word) : (columnOf w).word = w := be32_wordByte w

/-- Loading undoes unloading (R210). -/
theorem loadBlock_unloadBlock (x : AesBlock) : loadBlock (unloadBlock x) = x := by
  simp [loadBlock, unloadBlock, columnOf_word]

/-- Unloading undoes loading (R210). -/
theorem unloadBlock_loadBlock (w : Vector Word 4) : unloadBlock (loadBlock w) = w := by
  simp only [unloadBlock, loadBlock, word_columnOf]
  ext i hi
  match i with
  | 0 | 1 | 2 | 3 => rfl

/-! ## Each transformation and its inverse (R216 to R223) -/

theorem AesBlock.mapColumns_mapColumns {f g : AesColumn → AesColumn} (h : ∀ k, g (f k) = k) (s : AesBlock) :
    (s.mapColumns f).mapColumns g = s := by
  simp only [AesBlock.mapColumns, h]

theorem AesColumn.mapBytes_mapBytes {f g : Byte → Byte} (h : ∀ b, g (f b) = b) (k : AesColumn) :
    (k.mapBytes f).mapBytes g = k := by
  simp only [AesColumn.mapBytes, h]

@[simp] theorem invSubBytes_subBytes (s : AesBlock) : invSubBytes (subBytes s) = s :=
  AesBlock.mapColumns_mapColumns (AesColumn.mapBytes_mapBytes invSbox_sbox) s

@[simp] theorem subBytes_invSubBytes (s : AesBlock) : subBytes (invSubBytes s) = s :=
  AesBlock.mapColumns_mapColumns (AesColumn.mapBytes_mapBytes sbox_invSbox) s

@[simp] theorem invShiftRows_shiftRows (s : AesBlock) : invShiftRows (shiftRows s) = s := rfl

@[simp] theorem shiftRows_invShiftRows (s : AesBlock) : shiftRows (invShiftRows s) = s := rfl

@[simp] theorem invMixColumns_mixColumns (s : AesBlock) : invMixColumns (mixColumns s) = s :=
  AesBlock.mapColumns_mapColumns invMixColumn_mixColumn s

@[simp] theorem mixColumns_invMixColumns (s : AesBlock) : mixColumns (invMixColumns s) = s :=
  AesBlock.mapColumns_mapColumns mixColumn_invMixColumn s

theorem xorColumn_cancel_right (a b : AesColumn) : xorColumn (xorColumn a b) b = a := by
  simp [xorColumn]

@[simp] theorem addRoundKey_addRoundKey (rk : Vector Word 44) (r : Fin 11) (s : AesBlock) :
    addRoundKey rk r (addRoundKey rk r s) = s := by
  simp only [addRoundKey, xorColumn_cancel_right]

/-! ## The rounds and their inverses (R224 to R226, R229) -/

/-- Steps undone one by one, the last one first: `h` is where an inverse step meets the step it undoes. -/
theorem foldl_reverse_undo {σ ι : Type} {f g : σ → ι → σ} {h : σ → σ} (hstep : ∀ y r, g (h (f y r)) r = h y)
    (rs : List ι) (y : σ) : rs.reverse.foldl g (h (rs.foldl f y)) = h y := by
  induction rs generalizing y with
  | nil => rfl
  | cons r rs ih =>
    rw [List.reverse_cons, List.foldl_append, List.foldl_cons (f := f), ih, List.foldl_cons, List.foldl_nil, hstep]

/-- Between a round and its inverse stand the SubBytes and ShiftRows of the round that follows it. -/
theorem invFullRound_fullRound (rk : Vector Word 44) (y : AesBlock) (r : Fin 11) :
    invFullRound rk (shiftRows (subBytes (fullRound rk y r))) r = shiftRows (subBytes y) := by
  rw [invFullRound, invShiftRows_shiftRows, invSubBytes_subBytes, fullRound, addRoundKey_addRoundKey, invMixColumns_mixColumns]

theorem fullRound_invFullRound (rk : Vector Word 44) (y : AesBlock) (r : Fin 11) :
    fullRound rk (invSubBytes (invShiftRows (invFullRound rk y r))) r = invSubBytes (invShiftRows y) := by
  rw [fullRound, subBytes_invSubBytes, shiftRows_invShiftRows, invFullRound, mixColumns_invMixColumns, addRoundKey_addRoundKey]

theorem invCipher_cipher (p : AesBlock) (rk : Vector Word 44) : invCipher (cipher p rk) rk = p := by
  have hrounds := foldl_reverse_undo (h := fun x => shiftRows (subBytes x)) (invFullRound_fullRound rk)
    [1, 2, 3, 4, 5, 6, 7, 8, 9] (addRoundKey rk 0 p)
  rw [invCipher, cipher, finalRound, addRoundKey_addRoundKey]
  exact (congrArg (invFinalRound rk) hrounds).trans (by simp [invFinalRound])

theorem cipher_invCipher (p : AesBlock) (rk : Vector Word 44) : cipher (invCipher p rk) rk = p := by
  have hrounds := foldl_reverse_undo (h := fun x => invSubBytes (invShiftRows x)) (fullRound_invFullRound rk)
    [9, 8, 7, 6, 5, 4, 3, 2, 1] (addRoundKey rk 10 p)
  rw [cipher, invCipher, invFinalRound, addRoundKey_addRoundKey]
  exact (congrArg (finalRound rk) hrounds).trans (by simp [finalRound])

/-- Settles O41: the rounds are undone one by one, the last one first. -/
theorem decryptionInvertsEncryption : Obligations.DecryptionInvertsEncryption :=
  fun rk p => ⟨invCipher_cipher p rk, cipher_invCipher p rk⟩

end Sys2Proof.Machine
end

section
/-! PROOFS, the AES commands (42_aes128.md R219, R227, R228, R230 to R232): the key schedule, what the commands answer, and what
they leave of the hash and HMAC state, and the others of the AES state. -/

namespace Sys2Proof.Machine

/-! ## The key schedule (R219) -/

theorem length_extendKey (n : Nat) (w : List Word) : (extendKey n w).length = n + w.length := by
  induction n generalizing w with
  | zero => simp [extendKey]
  | succ n ih => rw [extendKey, ih, List.length_cons]; omega

/-- The last of the added words is made of those before it. -/
theorem extendKey_succ (n : Nat) (w : List Word) : extendKey (n + 1) w = nextKeyWord (extendKey n w) :: extendKey n w := by
  induction n generalizing w with
  | zero => rfl
  | succ n ih => rw [extendKey, ih, extendKey]

theorem drop_extendKey (m n : Nat) (w : List Word) : (extendKey (m + n) w).drop m = extendKey n w := by
  induction m with
  | zero => rw [Nat.zero_add, List.drop_zero]
  | succ m ih => rw [Nat.add_right_comm, extendKey_succ, List.drop_succ_cons, ih]

/-- The words of the schedule up to word `n + 3`, newest first. -/
def keyWords (key : Vector Word 4) (n : Nat) : List Word := extendKey n key.toList.reverse

theorem length_keyWords (key : Vector Word 4) (n : Nat) : (keyWords key n).length = n + 4 := by
  simp [keyWords, length_extendKey]

/-- Word `j` of the schedule, found at any stage that has it. -/
theorem getElem_keyExpansion (key : Vector Word 4) {n j : Nat} (hn : n ≤ 40) (hj : j < n + 4) :
    (keyExpansion key)[j] = (keyWords key n).getD (n + 3 - j) 0 := by
  have hstage : (keyWords key 40).drop (40 - n) = keyWords key n := by
    have h := drop_extendKey (40 - n) n key.toList.reverse
    rwa [Nat.sub_add_cancel hn] at h
  have hlen := length_keyWords key 40
  show (Vector.ofFn fun i : Fin 44 => (keyWords key 40).reverse.getD i.val 0)[j] = _
  rw [Vector.getElem_ofFn, ← hstage, List.getD_eq_getElem?_getD, List.getD_eq_getElem?_getD, List.getElem?_reverse (by omega),
    List.getElem?_drop, hlen]
  congr 2
  show 44 - 1 - j = 40 - n + (n + 3 - j)
  omega

/-- The first four words are the key. -/
theorem getElem_keyExpansion_key (key : Vector Word 4) (i : Fin 4) : (keyExpansion key)[i.val] = key[i.val] := by
  have hi : 4 - 1 - (0 + 3 - i.val) = i.val := by omega
  rw [getElem_keyExpansion key (n := 0) (by omega) (by omega), keyWords, extendKey, List.getD_eq_getElem?_getD,
    List.getElem?_reverse (by rw [Vector.length_toList]; omega), Vector.length_toList, hi]
  simp

/-- A round constant as the word that the schedule adds, and as R214 lists it (R219). -/
theorem be32_rcon (i : Fin 40) : be32 (rcon ((i.val + 4) / 4)) 0 0 0 =
    ([0x01, 0x02, 0x04, 0x08, 0x10, 0x20, 0x40, 0x80, 0x1b, 0x36].getD (i.val / 4) 0 : Word) <<< 24 := by
  revert i
  decide

/-- Each later word is made of the one four before it and the one before it. -/
theorem getElem_keyExpansion_add_four (key : Vector Word 4) (i : Fin 40) :
    (keyExpansion key)[i.val + 4] = (keyExpansion key)[i.val] ^^^
      (if (i.val + 4) % 4 = 0 then
        subWord (rotWord (keyExpansion key)[i.val + 3]) ^^^ be32 (rcon ((i.val + 4) / 4)) 0 0 0
      else (keyExpansion key)[i.val + 3]) := by
  have hnext : (keyExpansion key)[i.val + 4] = nextKeyWord (keyWords key i.val) := by
    rw [getElem_keyExpansion key (n := i.val + 1) (by omega) (by omega), keyWords, extendKey_succ, Nat.add_right_comm,
      Nat.sub_self]
    rfl
  have hlast : (keyExpansion key)[i.val + 3] = (keyWords key i.val).getD 0 0 := by
    rw [getElem_keyExpansion key (n := i.val) (by omega) (by omega), Nat.sub_self]
  have hfourth : (keyExpansion key)[i.val] = (keyWords key i.val).getD 3 0 := by
    rw [getElem_keyExpansion key (n := i.val) (by omega) (by omega), Nat.add_sub_cancel_left]
  rw [hnext, hlast, hfourth, nextKeyWord, length_keyWords]

/-- Settles O26: AES_KEYEXP has no precondition, and RK becomes the schedule of the key in DIN[0..3]. -/
theorem aesKeyexpExpandsKey : Obligations.AesKeyexpExpandsKey := by
  intro s l hb hl
  refine ⟨_, exec_of_latency_zero (by decide) hb rfl rfl hl, rfl, fun i => ?_, fun i => ?_⟩
  · refine (getElem_keyExpansion_key s.dinBlock i).trans ?_
    fin_cases i <;> rfl
  · have hrec := getElem_keyExpansion_add_four s.dinBlock i
    rw [be32_rcon] at hrec
    exact hrec

/-! ## The commands (R230 to R232) -/

/-- Settles O27: AES_ENC has no precondition, and the fold over the nine full rounds is their composition. -/
theorem aesEncEncryptsBlock : Obligations.AesEncEncryptsBlock := by
  intro s l hb hl
  exact exec_of_latency_zero (by decide) hb rfl rfl hl

/-- Settles O28: AES_DEC has no precondition, and the fold over the nine inverse rounds is their composition. -/
theorem aesDecDecryptsBlock : Obligations.AesDecDecryptsBlock := by
  intro s l hb hl
  exact exec_of_latency_zero (by decide) hb rfl rfl hl

/-- The block of an AES command is what was written to DIN[0..3] (R26). -/
theorem State.dinBlock_writeBlock (s : State) (v : Vector Word 4) :
    State.dinBlock { s with din := (((s.din.set 0 v[0]).set 1 v[1]).set 2 v[2]).set 3 v[3] } = v := by
  ext i hi
  match i with
  | 0 | 1 | 2 | 3 => simp [State.dinBlock]

/-- Settles O42: neither command touches RK, the words written back load as the ciphertext, and decryption undoes encryption. -/
theorem aesDecReturnsThePlaintext : Obligations.AesDecReturnsThePlaintext := by
  intro s l hb hl
  refine ⟨_, _, exec_of_latency_zero (by decide) hb rfl rfl hl, exec_of_latency_zero (by decide) hb rfl rfl rfl, ?_⟩
  have hdin := State.dinBlock_writeBlock { s with latencies := l } (unloadBlock (cipher (loadBlock s.dinBlock) s.rk))
  calc
    _ = unloadBlock (invCipher (loadBlock (unloadBlock (cipher (loadBlock s.dinBlock) s.rk))) s.rk) :=
      congrArg (fun b => unloadBlock (invCipher (loadBlock b) s.rk)) hdin
    _ = s.dinBlock := by rw [loadBlock_unloadBlock, invCipher_cipher, unloadBlock_loadBlock]

/-! ## Independence (R227) -/

@[simp] theorem State.outerPass_rk (s : State) (inner : List Byte) : (s.outerPass inner).rk = s.rk := by
  simp [State.outerPass]

@[simp] theorem State.outerPass_aesout (s : State) (inner : List Byte) : (s.outerPass inner).aesout = s.aesout := by
  simp [State.outerPass]

/-- RK and AESOUT are written by the completion steps of the AES commands alone (R227). -/
theorem perform_rk_aesout {i : Instr} (s : State) (hkey : i ≠ .aesKeyexp) (henc : i ≠ .aesEnc) (hdec : i ≠ .aesDec) :
    (perform i s).rk = s.rk ∧ (perform i s).aesout = s.aesout := by
  cases i with
  | aesKeyexp => exact absurd rfl hkey
  | aesEnc => exact absurd rfl henc
  | aesDec => exact absurd rfl hdec
  | _ => simp

/-- Settles O44: the completion steps of the AES commands, written as updates, name RK, AESOUT and DIN alone. -/
theorem aesAndHashAreIndependent : Obligations.AesAndHashAreIndependent := by
  refine ⟨?_, ?_, ?_⟩
  · rintro i s (rfl | rfl | rfl) <;> simp
  · rintro i s t (rfl | rfl | rfl) hdin hrk haes <;> simp [State.dinBlock, hdin, hrk, haes]
  · exact fun _ s => perform_rk_aesout s

end Sys2Proof.Machine
end

section
/-! PROOFS, control (43_control.md R262 to R264, R283): a CMD write of a command's word, what an acceptance leaves, and that the
completion does not depend on when it is performed. -/

namespace Sys2Proof.Machine

/-! ## The write to CMD (R262, R283) -/

/-- A busy block rejects every command but CLR_ERR (R283, R284). -/
theorem exec_of_busy {i : Instr} {s : State} (hi : i ≠ .clrErr) (hb : s.busy = true) :
    exec i s = .next (s.reject .busy) := by
  rw [exec_eq_issue i s hi, State.issue, if_pos hb]

theorem opcode_eq_clrErr_iff (i : Instr) : opcode i = 0x30 ↔ i = .clrErr := by
  cases i <;> simp [opcode]

/-- The write of a command's word is `exec` of the command, busy or not: both turn a busy block's command away, and both let
CLR_ERR pass (R262, R283, R284). -/
theorem issueCommand_of_decode {v : Word} {i : Instr} (s : State) (hd : decode v = .ok i) : issueCommand v s = exec i s := by
  have hop : opField v = opcode i := by rw [← encode_of_decode hd, opField_encode]
  by_cases hi : i = .clrErr
  · exact issueCommand_of_decode_ok (.inr (hop.trans ((opcode_eq_clrErr_iff i).2 hi))) hd
  · cases hb : s.busy with
    | false => exact issueCommand_of_decode_ok (.inl hb) hd
    | true =>
      rw [exec_of_busy hi hb]
      exact issueCommand_of_busy hb fun h => hi ((opcode_eq_clrErr_iff i).1 (hop.symm.trans h))

/-- Past the busy check, a word that is no command is rejected with the decoder's reason (R283, R285, R286). -/
theorem issueCommand_of_decode_error {v : Word} {s : State} {r : DecodeReject} (hb : s.busy = false ∨ opField v = 0x30)
    (hd : decode v = .error r) : issueCommand v s = .next (s.reject (DecodeReject.code r)) := by
  rw [issueCommand, if_neg (by rcases hb with h | h <;> simp [h]), hd]

/-- Out of reset, an aligned 32-bit access inside the window is admitted (R61 to R63, R310). -/
theorem State.refusal_eq_none {s : State} {off : Nat} (hres : s.inReset = false) (hoff : off < 0x200) (hal : off % 4 = 0) :
    s.refusal off .w32 = none :=
  (s.refusal_eq_none_iff off .w32).2 ⟨hoff, hres, rfl, hal⟩

/-- The host's write of a command's word to CMD, when it is not the engine's turn (R262). -/
theorem step_writeCmd {s : State} {v : Word} {i : Instr} {rest : List HostInput} (hres : s.inReset = false)
    (ht : s.engineTurn = false) (hi : s.inputs = .write 0x004 .w32 v :: rest) (hd : decode v = .ok i) :
    step s = exec i { s with wait := s.wait - 1, inputs := rest } := by
  have hadm : State.refusal { s.tick with inputs := rest } 0x004 .w32 = none :=
    State.refusal_eq_none hres (by decide) (by decide)
  rw [step_takeInput ht hi]
  exact (hostWrite_of_admitted v hadm).trans (issueCommand_of_decode _ hd)

/-- Settles O5: it is not the engine's turn, so the step is the host's write. -/
theorem stepRunsTheDecodedCommand : Obligations.StepRunsTheDecodedCommand := by
  intro s v i rest hres hturn hi hd
  have ht : s.engineTurn = false := by
    rw [← Bool.not_eq_true, s.engineTurn_iff]
    exact fun ⟨hb, hw, _⟩ => hturn ⟨hb, hw⟩
  exact step_writeCmd hres ht hi hd

/-- The decoder's table reads a word of up to 32 bits as the command it decodes to. -/
theorem decode_of_decodeTableWord {nbits w : Nat} {i : Instr} (h : decodeTableWord nbits w = some i) :
    decode (BitVec.ofNat 32 (w % 2 ^ nbits)) = .ok i := by
  unfold decodeTableWord at h
  split at h
  · split at h
    next hd => cases h; exact hd
    next => cases h
  · cases h

/-- Settles O6: the placed word is the host's next write to CMD, and an idle block's step is the host's. -/
theorem placedWordRunsNext : Obligations.PlacedWordRunsNext := by
  intro s nbits w i hb h
  have hstep := step_writeCmd (s := s.withFetchWord nbits w) rfl (State.engineTurn_of_idle hb) rfl
    (decode_of_decodeTableWord h)
  rw [hstep]
  simp [State.withFetchWord, State.placeCommand, hb]

/-- Settles O17: CLR_ERR passes the busy check by its OP, and its row of the decoder allows no other bit. -/
theorem clrErrClearsErr : Obligations.ClrErrClearsErr := by
  intro s
  refine ⟨rfl, issueCommand_of_decode s (i := .clrErr) (by decide), fun v hop hhigh => ?_⟩
  have hrow : opField v = opcode .clrErr := (opField_eq_iff v _).2 hop
  exact issueCommand_of_decode_error (.inr hrow) (decode_of_badArgument hrow (.inr ⟨by decide, hhigh⟩))

/-! ## Acceptance and completion (R262, R263, R318) -/

/-- An admitted command whose acceptance takes the latency n + 1 becomes pending (R262, R283). -/
theorem exec_of_latency_succ {i : Instr} {s : State} {n : Nat} {l : List Nat} (hi : i ≠ .clrErr) (hb : s.busy = false)
    (hw : i.wellFormed = true) (hq : s.seqOK i = true) (hl : s.latencies = (n + 1) :: l) :
    exec i s = .next ({ s with latencies := l }.setPending i n) := by
  rw [exec_eq_issue i s hi, State.issue, if_neg (by simp [hb]), if_pos hw, if_pos hq, State.accept,
    s.nextLatency_cons (n + 1) l hl, s.takeLatency_cons (n + 1) l hl]

/-- Settles O11: an acceptance with LAT = n + 1 only sets the pending command. -/
theorem acceptedCommandBecomesPending : Obligations.AcceptedCommandBecomesPending :=
  fun _ _ _ _ hb hi hw hq hl => exec_of_latency_succ hi hb hw hq hl

/-- Settles O18: NOP has no precondition, and its completion is the state itself. -/
theorem nopChangesNothing : Obligations.NopChangesNothing :=
  fun _ _ hb hl => exec_of_latency_zero (i := .nop) (by decide) hb rfl rfl hl

/-- Settles O12: a completion step reads no element of the sequencing state, and leaves the sequencing state of an idle block
once BUSY and PEND are cleared. -/
theorem completionDoesNotDependOnLatency : Obligations.CompletionDoesNotDependOnLatency := by
  intro s i l hb hp hw hres hi hwf hq hl
  let atOnce : State := { s with latencies := l }
  let pending : State := { s with latencies := l, busy := true, pend := some i, wait := 0 }
  have hcleared : pending.clearPending = atOnce := by
    show ({ s with latencies := l, busy := false, pend := none, wait := 0 } : State) = atOnce
    rw [← hb, ← hp, ← hw]
  have hturn : pending.engineTurn = true := (State.engineTurn_iff _).2 ⟨rfl, rfl, hres⟩
  refine ⟨perform i atOnce, exec_of_latency_zero hi hb hwf hq hl, (step_engine hturn rfl).trans (congrArg _ ?_)⟩
  calc (perform i pending).clearPending
      = ((perform i atOnce).withEnv pending).clearPending := congrArg _ (perform_withEnv i atOnce pending)
    _ = (perform i atOnce).withEnv pending.clearPending := rfl
    _ = perform i atOnce := by rw [hcleared, ← perform_env]

end Sys2Proof.Machine
end

section
/-! PROOFS, POLL (30_encoding.md R98; 43_control.md R260, R268): the rounds that wait for a pending command, and the one that
ends. -/

namespace Sys2Proof.Machine

/-- STATUS is odd exactly while BUSY = 1 (R24, R260). -/
theorem State.statusWord_mod_two (s : State) (draw : Word) : (s.statusWord draw).toNat % 2 = s.busy.toNat := by
  rw [← s.statusWord_bit0 draw, BitVec.getLsbD, Nat.testBit_zero]
  rcases Nat.mod_two_eq_zero_or_one (s.statusWord draw).toNat with h | h <;> simp [h]

/-- The rounds of POLL while a command waits: one odd word each, and nothing else but the counts of steps and draws changes. -/
theorem run_poll_waiting {rest : List HostInput} (n : Nat) {s : State} (hb : s.busy = true) (hres : s.inReset = false)
    (hi : s.inputs = .poll :: rest) (hn : s.wait = n) :
    ∃ ws : List Word, ws.length = n ∧ (∀ x ∈ ws, x.toNat % 2 = 1) ∧
      core.run n s = .next { s with wait := 0, reads := ws ++ s.reads, fresh := s.fresh + n } := by
  induction n generalizing s with
  | zero =>
    refine ⟨[], rfl, by simp, ?_⟩
    show Host.Outcome.next s = .next { s with wait := 0 }
    rw [← hn]
  | succ n ih =>
    have hround := step_poll hres (by simp [State.engineTurn, hn]) hi
    rw [if_pos hb, ← hi] at hround
    obtain ⟨ws, hlen, hodd, hrun⟩ := ih (s := { s with
      wait := s.wait - 1, reads := s.statusWord (Config.draw s.fresh) :: s.reads, fresh := s.fresh + 1 })
      hb hres hi (by simp [hn])
    refine ⟨ws ++ [s.statusWord (Config.draw s.fresh)], by simp [hlen], fun x hx => ?_, ?_⟩
    · rcases List.mem_append.1 hx with hx | hx
      · exact hodd x hx
      · rw [List.mem_singleton.1 hx, s.statusWord_mod_two, hb]; rfl
    · rw [core_run_succ n hround, hrun, List.append_assoc, Nat.add_assoc, Nat.add_comm 1 n]
      rfl

/-! A completion step leaves what the host has read and has still to do, and the count of draws (R262). -/

@[simp] theorem perform_inputs (i : Instr) (s : State) : (perform i s).inputs = s.inputs :=
  (congrArg State.inputs (perform_env i s)).trans rfl
@[simp] theorem perform_reads (i : Instr) (s : State) : (perform i s).reads = s.reads :=
  (congrArg State.reads (perform_env i s)).trans rfl
@[simp] theorem perform_fresh (i : Instr) (s : State) : (perform i s).fresh = s.fresh :=
  (congrArg State.fresh (perform_env i s)).trans rfl

/-- The engine's step of a command that has waited, and the round of POLL that ends. -/
theorem run_poll_completing {i : Instr} {s : State} {rest : List HostInput} (hb : s.busy = true) (hp : s.pend = some i)
    (hres : s.inReset = false) (hi : s.inputs = .poll :: rest) (hw : s.wait = 0) :
    ∃ w : Word, w.toNat % 2 = 0 ∧ core.run 2 s = .next { (perform i s).clearPending with
      inputs := rest, reads := w :: s.reads, fresh := s.fresh + 1 } := by
  have hengine := step_engine (s.engineTurn_iff.2 ⟨hb, hw, hres⟩) hp
  have hround := step_poll (s := (perform i s).clearPending) (rest := rest) (by simp [hres]) (by simp [State.engineTurn])
    (by simp [hi])
  refine ⟨(perform i s).clearPending.statusWord (Config.draw s.fresh), State.statusWord_mod_two _ _, ?_⟩
  rw [core_run_succ 1 hengine, core_run_succ 0 hround, core_run_zero]
  simp [hw]

/-- Settles O14: an idle block ends POLL in one round; a busy one after its waiting rounds and the completion, which reads none of
what those rounds changed. -/
theorem pollWaitsForCompletion : Obligations.PollWaitsForCompletion := by
  intro s rest hres hi
  refine ⟨fun hb => ?_, fun i hb hp => ?_⟩
  · have hadm : s.refusal 0x008 .w32 = none := State.refusal_eq_none hres (by decide) (by decide)
    refine ⟨s.statusWord (Config.draw s.fresh), ?_, hostRead_of_admitted hadm, ?_⟩
    · rw [s.statusWord_mod_two, hb]; rfl
    · rw [step_poll hres (State.engineTurn_of_idle hb) hi, if_neg (by simp [hb])]
  · obtain ⟨ws, hlen, hodd, hwaiting⟩ := run_poll_waiting s.wait hb hres hi rfl
    let waited : State := { s with wait := 0, reads := ws ++ s.reads, fresh := s.fresh + s.wait }
    obtain ⟨w, heven, hdone⟩ := run_poll_completing (s := waited) hb hp hres hi rfl
    refine ⟨w, ws, heven, hlen, hodd, ((core_run_add 2 hwaiting).trans hdone).trans (congrArg _ ?_)⟩
    have hsame : perform i waited = (perform i { s with wait := 0 }).withEnv waited :=
      perform_withEnv i { s with wait := 0 } waited
    rw [hsame, perform_env i { s with wait := 0 }]
    rfl

end Sys2Proof.Machine
end

section
/-! PROOFS, the register window (20_memory.md R61, R66; 43_control.md R260, R261, R265, R266): which register each offset names,
and what a read of it returns and a write of it does, idle and busy. -/

namespace Sys2Proof.Machine

/-! ## The map (R61) -/

/-- The map of R61, row by row: each register with its aligned offset, and the reserved offsets between the rows (R66). -/
inductive MapRow : Nat → Reg → Prop
  | id : MapRow 0x000 .id
  | cmd : MapRow 0x004 .cmd
  | status : MapRow 0x008 .status
  | bitlenLo : MapRow 0x00C .bitlenLo
  | bitlenHi : MapRow 0x010 .bitlenHi
  | din (i : Fin 16) : MapRow (0x040 + 4 * i.val) (.din i)
  | digest (i : Fin 8) : MapRow (0x080 + 4 * i.val) (.digest i)
  | aesout (i : Fin 4) : MapRow (0x0A0 + 4 * i.val) (.aesout i)
  | rk (i : Fin 44) : MapRow (0x100 + 4 * i.val) (.rk i)
  | reserved {off : Nat} (h : (0x014 ≤ off ∧ off < 0x040) ∨ (0x0B0 ≤ off ∧ off < 0x100) ∨ 0x1B0 ≤ off) :
      MapRow off .reserved

/-- An aligned offset is that of word `k` of a window of `n` words. -/
theorem exists_word_of_aligned {off base n : Nat} (hbase : base % 4 = 0) (hal : off % 4 = 0) (hlow : base ≤ off)
    (hhigh : off < base + 4 * n) : ∃ k : Fin n, off = base + 4 * k.val :=
  ⟨⟨(off - base) / 4, by omega⟩, by simp only; omega⟩

theorem regAt_din (i : Fin 16) : regAt (0x040 + 4 * i.val) = .din i := by revert i; decide
theorem regAt_digest (i : Fin 8) : regAt (0x080 + 4 * i.val) = .digest i := by revert i; decide
theorem regAt_aesout (i : Fin 4) : regAt (0x0A0 + 4 * i.val) = .aesout i := by revert i; decide
theorem regAt_rk (i : Fin 44) : regAt (0x100 + 4 * i.val) = .rk i := by revert i; decide

theorem MapRow.regAt_eq {off : Nat} {r : Reg} (h : MapRow off r) : regAt off = r := by
  cases h with
  | din i => exact regAt_din i
  | digest i => exact regAt_digest i
  | aesout i => exact regAt_aesout i
  | rk i => exact regAt_rk i
  | reserved h => exact regAt_eq_reserved h
  | _ => rfl

/-- Every aligned offset is in a row of the map. -/
theorem exists_mapRow {off : Nat} (hal : off % 4 = 0) : ∃ r, MapRow off r := by
  by_cases hlow : off < 0x014
  · obtain rfl | rfl | rfl | rfl | rfl : off = 0x000 ∨ off = 0x004 ∨ off = 0x008 ∨ off = 0x00C ∨ off = 0x010 := by omega
    exacts [⟨_, .id⟩, ⟨_, .cmd⟩, ⟨_, .status⟩, ⟨_, .bitlenLo⟩, ⟨_, .bitlenHi⟩]
  by_cases hres : (0x014 ≤ off ∧ off < 0x040) ∨ (0x0B0 ≤ off ∧ off < 0x100) ∨ 0x1B0 ≤ off
  · exact ⟨_, .reserved hres⟩
  by_cases hrk : 0x100 ≤ off
  · obtain ⟨i, rfl⟩ := exists_word_of_aligned (base := 0x100) (n := 44) rfl hal hrk (by omega)
    exact ⟨_, .rk i⟩
  by_cases haes : 0x0A0 ≤ off
  · obtain ⟨i, rfl⟩ := exists_word_of_aligned (base := 0x0A0) (n := 4) rfl hal haes (by omega)
    exact ⟨_, .aesout i⟩
  by_cases hdig : 0x080 ≤ off
  · obtain ⟨i, rfl⟩ := exists_word_of_aligned (base := 0x080) (n := 8) rfl hal hdig (by omega)
    exact ⟨_, .digest i⟩
  · obtain ⟨i, rfl⟩ := exists_word_of_aligned (base := 0x040) (n := 16) rfl hal (by omega) (by omega)
    exact ⟨_, .din i⟩

/-! ## Reads (R260, R266) -/

/-- An admitted read records the word of the register in its row, and nothing else changes but the count of draws. -/
theorem hostRead_of_mapRow {s : State} {off : Nat} {r : Reg} (hres : s.inReset = false) (hoff : off < 0x200)
    (hal : off % 4 = 0) (h : MapRow off r) :
    hostRead off .w32 s =
      .next { s with reads := s.readReg r (Config.draw s.fresh) :: s.reads, fresh := s.fresh + 1 } := by
  rw [hostRead_of_admitted (State.refusal_eq_none hres hoff hal), h.regAt_eq]
  rfl

/-- STATUS of an idle block, its fields at their places (R24). -/
theorem State.statusWord_of_idle {s : State} (hb : s.busy = false) (draw : Word) :
    s.statusWord draw = BitVec.ofNat 32
      (2 * s.shaState.bits.toNat + 8 * s.hmacInner.toNat + 2 ^ 8 * s.bufcnt.toNat + 2 ^ 16 * s.err.toNat) := by
  apply BitVec.eq_of_toNat_eq
  rw [State.statusWord, if_neg (by simp [hb]), packStatus_toNat, BitVec.toNat_ofNat, BitVec.toNat_ofBool]
  have := s.shaState.bits.isLt
  have := s.hmacInner.toNat_le
  have := s.bufcnt.isLt
  have := s.err.isLt
  simp
  omega

/-- The bits of STATUS, field by field (R24). -/
theorem getLsbD_packStatus (err : BitVec 4) (bufcnt : BitVec 6) (inner : BitVec 1) (sha : BitVec 2) (busy : BitVec 1)
    {i : Nat} (hi : i < 32) :
    (packStatus err bufcnt inner sha busy).getLsbD i =
      if i < 1 then busy.getLsbD i
      else if i < 3 then sha.getLsbD (i - 1)
      else if i < 4 then inner.getLsbD (i - 3)
      else if i < 8 then false
      else if i < 14 then bufcnt.getLsbD (i - 8)
      else if i < 16 then false
      else if i < 20 then err.getLsbD (i - 16)
      else false := by
  refine (BitVec.getLsbD_append (x := 0#12 ++ err ++ 0#2 ++ bufcnt ++ 0#4 ++ inner ++ sha) (y := busy)).trans ?_
  simp only [BitVec.getLsbD_append]
  interval_cases i <;> simp

/-- STATUS has no bit outside its fields (R24). -/
theorem packStatus_and_reserved (err : BitVec 4) (bufcnt : BitVec 6) (inner : BitVec 1) (sha : BitVec 2) (busy : BitVec 1) :
    packStatus err bufcnt inner sha busy &&& 0xFFF0C0F0 = 0 := by
  refine BitVec.eq_of_getLsbD_eq fun i hi => ?_
  rw [BitVec.getLsbD_and, getLsbD_packStatus _ _ _ _ _ hi]
  interval_cases i <;> simp

/-- BUFCNT, HMAC_INNER and SHA_STATE taken from a word at their places are that word's bits (R24, R266). -/
theorem packStatus_and_drawn (err : BitVec 4) (busy : BitVec 1) (draw : Word) :
    packStatus err (draw.extractLsb' 8 6) (draw.extractLsb' 3 1) (draw.extractLsb' 1 2) busy &&& 0x00003F0E =
      draw &&& 0x00003F0E := by
  refine BitVec.eq_of_getLsbD_eq fun i hi => ?_
  rw [BitVec.getLsbD_and, BitVec.getLsbD_and, getLsbD_packStatus _ _ _ _ _ hi]
  interval_cases i <;> simp

/-- ERR is bits 19 to 16 of STATUS (R24). -/
theorem packStatus_err (err : BitVec 4) (bufcnt : BitVec 6) (inner : BitVec 1) (sha : BitVec 2) (busy : BitVec 1) :
    (packStatus err bufcnt inner sha busy).toNat / 2 ^ 16 % 2 ^ 4 = err.toNat := by
  rw [packStatus_toNat]
  have := err.isLt
  have := bufcnt.isLt
  have := inner.isLt
  have := sha.isLt
  have := busy.isLt
  omega

/-! The two halves of BITLEN (R25). -/

theorem State.bitlen_low (s : State) : s.bitlen.extractLsb' 0 32 = BitVec.ofNat 32 (s.bitlen.toNat % 2 ^ 32) := by
  apply BitVec.eq_of_toNat_eq
  simp [BitVec.extractLsb'_toNat]

theorem State.bitlen_high (s : State) : s.bitlen.extractLsb' 32 32 = BitVec.ofNat 32 (s.bitlen.toNat / 2 ^ 32) := by
  apply BitVec.eq_of_toNat_eq
  simp [BitVec.extractLsb'_toNat, Nat.shiftRight_eq_div_pow]

/-- A word of a window as the list of its words has it (R64). -/
theorem getD_toList {α : Type} {n : Nat} (v : Vector α n) (i : Fin n) (d : α) : v.toList.getD i.val d = v[i] := by
  simp

/-- Settles O51: each row of the map in turn. -/
theorem idleReadsFollowTheMap : Obligations.IdleReadsFollowTheMap := by
  intro s off hb hres hoff hal sha w
  obtain ⟨r, hrow⟩ := exists_mapRow hal
  have hword : s.readReg r (Config.draw s.fresh) = w := by
    subst w
    cases hrow with
    | id | cmd => rfl
    | status =>
      have hsha : s.shaState.bits.toNat = sha := by cases h : s.shaState <;> simp [sha, h, ShaState.bits]
      exact hsha ▸ s.statusWord_of_idle hb _
    | bitlenLo => exact (if_neg (by simp [hb])).trans s.bitlen_low
    | bitlenHi => exact (if_neg (by simp [hb])).trans s.bitlen_high
    | din i | digest i | aesout i | rk i =>
      simp (disch := omega) only [if_pos, if_neg, Nat.add_sub_cancel_left, Nat.mul_div_cancel_left, getD_toList]
      simp [State.readReg, hb]
    | reserved h => simp (disch := omega) only [if_neg, State.readReg]
  rw [hostRead_of_mapRow hres hoff hal hrow, hword]

/-- Settles O52: each row of the map in turn. -/
theorem busyReadsDraw : Obligations.BusyReadsDraw := by
  intro s off hb hres hoff hal
  obtain ⟨r, hrow⟩ := exists_mapRow hal
  refine ⟨_, hostRead_of_mapRow hres hoff hal hrow, ?_⟩
  cases hrow with
  | id | cmd => rfl
  | status =>
    have hbusy : (s.readReg .status (Config.draw s.fresh)).toNat % 2 = 1 := by
      rw [State.readReg, s.statusWord_mod_two, hb]; rfl
    have hfields : s.readReg .status (Config.draw s.fresh) = packStatus s.err _ _ _ 1 := if_pos hb
    refine ⟨hbusy, ?_, ?_, ?_⟩ <;> rw [hfields]
    · exact packStatus_err _ _ _ _ _
    · exact packStatus_and_reserved _ _ _ _ _
    · exact packStatus_and_drawn _ _ _
  | bitlenLo | bitlenHi => exact if_pos hb
  | din i =>
    simp (disch := omega) only [if_pos, if_neg, Nat.add_sub_cancel_left, Nat.mul_div_cancel_left, getD_toList]
    rfl
  | digest i | aesout i | rk i =>
    simp (disch := omega) only [if_pos, if_neg]
    exact if_pos hb
  | reserved h => simp (disch := omega) only [if_neg, State.readReg]

/-! ## Writes (R261, R265) -/

/-- An admitted write is the write of the register in its row. -/
theorem hostWrite_of_mapRow {s : State} {off : Nat} {r : Reg} (v : Word) (hres : s.inReset = false) (hoff : off < 0x200)
    (hal : off % 4 = 0) (h : MapRow off r) : hostWrite off .w32 v s = s.writeReg r v := by
  rw [hostWrite_of_admitted v (State.refusal_eq_none hres hoff hal), h.regAt_eq]

/-- A write to DIN is dropped with ERR_BUSY while busy, and stores the word while idle (R261, R265). -/
theorem hostWrite_din {s : State} (v : Word) (hres : s.inReset = false) (i : Fin 16) :
    hostWrite (0x040 + 4 * i.val) .w32 v s = .next (if s.busy then { s with err := 1 } else { s with din := s.din.set i v }) := by
  rw [hostWrite_of_mapRow v hres (by omega) (by omega) (.din i), apply_ite Host.Outcome.next]
  rfl

/-- A write to RK is dropped with ERR_BUSY while busy, and stores the word while idle (R261, R265). -/
theorem hostWrite_rk {s : State} (v : Word) (hres : s.inReset = false) (i : Fin 44) :
    hostWrite (0x100 + 4 * i.val) .w32 v s = .next (if s.busy then { s with err := 1 } else { s with rk := s.rk.set i v }) := by
  rw [hostWrite_of_mapRow v hres (by omega) (by omega) (.rk i), apply_ite Host.Outcome.next]
  rfl

/-- Settles O53: CMD, DIN and RK are the rows of the map whose register takes a write. -/
theorem writesFollowTheMap : Obligations.WritesFollowTheMap := by
  intro s v hres
  refine ⟨hostWrite_of_mapRow v hres (by decide) (by decide) .cmd, hostWrite_din v hres, hostWrite_rk v hres, ?_⟩
  intro off hoff hal hcmd hdin hrk
  obtain ⟨r, hrow⟩ := exists_mapRow hal
  rw [hostWrite_of_mapRow v hres hoff hal hrow]
  cases hrow with
  | cmd => exact absurd rfl hcmd
  | din i => exact absurd ⟨by omega, by omega⟩ hdin
  | rk i => exact absurd ⟨by omega, by omega⟩ hrk
  | _ => rfl

/-- Settles O54: a busy block's case of the two writes. -/
theorem busyWritesAreDropped : Obligations.BusyWritesAreDropped := fun _ v hb hres =>
  ⟨fun i => (hostWrite_din v hres i).trans (by rw [if_pos hb]), fun i => (hostWrite_rk v hres i).trans (by rw [if_pos hb])⟩

end Sys2Proof.Machine
end

section
/-! PROOFS, exceptions (60_exceptions.md R280 to R288, R290): the four rejections of a CMD write in their order, that no command
stops the machine, and that no step from a safe state does. -/

namespace Sys2Proof.Machine

/-! ## No command stops the machine (R280, R290) -/

@[simp] theorem State.accept_inReset (s : State) (i : Instr) : (s.accept i (perform i)).inReset = s.inReset := by
  rcases s.accept_cases i (perform i) with ⟨-, h⟩ | ⟨n, -, h⟩ <;> simp [h]

@[simp] theorem State.accept_inputs (s : State) (i : Instr) : (s.accept i (perform i)).inputs = s.inputs := by
  rcases s.accept_cases i (perform i) with ⟨-, h⟩ | ⟨n, -, h⟩ <;> simp [h]

/-- The result is a next state, with the reset input and the inputs still to come as in `s`. -/
def State.Answers (s : State) (r : Result) : Prop := ∃ t, r = .next t ∧ t.inReset = s.inReset ∧ t.inputs = s.inputs

theorem State.answers_reject (s : State) (c : ErrCode) : s.Answers (.next (s.reject c)) := ⟨_, rfl, rfl, rfl⟩

/-- A command is CLR_ERR, a rejection or an acceptance, and each is a next state (R264, R282, R283). -/
theorem exec_answers (i : Instr) (s : State) : s.Answers (exec i s) := by
  by_cases hi : i = .clrErr
  · subst hi
    exact ⟨_, rfl, rfl, rfl⟩
  · rw [exec_eq_issue i s hi]
    rcases s.issue_cases i (perform i) with ⟨-, hr⟩ | ⟨-, -, hr⟩ | ⟨-, -, -, hr⟩ | ⟨-, -, -, hr⟩ <;> rw [hr]
    · exact s.answers_reject .busy
    · exact s.answers_reject .arg
    · exact s.answers_reject .sequence
    · exact ⟨_, rfl, s.accept_inReset i, s.accept_inputs i⟩

/-- Settles O15: the answer of `exec` is a next state, whatever the checks of R283 find. -/
theorem commandsNeverStop : Obligations.CommandsNeverStop := by
  intro i s
  obtain ⟨t, ht, -⟩ := exec_answers i s
  exact ⟨t, ht⟩

/-! ## From a safe state no step stops (R280, R262, R288) -/

theorem issueCommand_answers (v : Word) (s : State) : s.Answers (issueCommand v s) := by
  rcases issueCommand_cases v s with ⟨c, hr⟩ | ⟨i, -, hr⟩ <;> rw [hr]
  · exact s.answers_reject c
  · exact exec_answers i s

/-- Every write of a register is answered: CMD by the command, DIN and RK by the store or the rejection, others by nothing. -/
theorem State.writeReg_answers (s : State) (r : Reg) (v : Word) : s.Answers (s.writeReg r v) := by
  cases r with
  | cmd => exact issueCommand_answers v s
  | din k | rk k =>
    rw [State.writeReg]
    split
    · exact s.answers_reject .busy
    · exact ⟨_, rfl, rfl, rfl⟩
  | _ => exact ⟨s, rfl, rfl, rfl⟩

/-- Out of reset, an aligned 32-bit access inside the window is answered (R61 to R63). -/
theorem takeInput_answers {i : HostInput} {s : State} (hi : i.admissible = true) (hpoll : i ≠ .poll)
    (hres : s.inReset = false) : s.Answers (takeInput i s) := by
  cases i with
  | read off width =>
    obtain ⟨rfl, hal, hoff⟩ := of_decide_eq_true hi
    exact ⟨_, hostRead_of_admitted (State.refusal_eq_none hres hoff hal), rfl, rfl⟩
  | write off width v =>
    obtain ⟨rfl, hal, hoff⟩ := of_decide_eq_true hi
    rw [takeInput, hostWrite_of_admitted v (State.refusal_eq_none hres hoff hal)]
    exact s.writeReg_answers _ v
  | poll => exact absurd rfl hpoll
  | assertReset | releaseReset => cases hi

/-- A step from a safe state is answered out of reset, and brings no input that was not to come: the engine finds its command
pending, and every input is one that the block answers. -/
theorem Safe.step_answered {s : State} (hs : Safe s) :
    ∃ t, step s = .next t ∧ t.inReset = false ∧ t.inputs ⊆ s.inputs := by
  obtain ⟨hinv, hres, hadm⟩ := hs
  rcases transition_cases s with ⟨hturn, -⟩ | ⟨-, -, hidle⟩ | ⟨i, rest, hturn, hin, -⟩
  · obtain ⟨hb, -, -⟩ := s.engineTurn_iff.1 hturn
    obtain ⟨i, hp⟩ := Option.ne_none_iff_exists'.1 (hinv.busy_iff_pend.1 hb)
    exact ⟨_, step_engine hturn hp, by simp [hres], by simp⟩
  · exact ⟨_, hidle, hres, List.Subset.refl _⟩
  · by_cases hpoll : i = .poll
    · subst hpoll
      refine ⟨_, step_poll hres hturn hin, hres, ?_⟩
      rw [hin]
      dsimp only
      split
      · exact List.Subset.refl _
      · exact List.subset_cons_self _ _
    · have hi : i.admissible = true := hadm i (by simp [hin])
      obtain ⟨t, ht, hr, hrest⟩ := takeInput_answers (s := { s.tick with inputs := rest }) hi hpoll hres
      refine ⟨t, (step_takeInput hturn hin).trans ht, hr.trans hres, ?_⟩
      rw [hrest, hin]
      exact List.subset_cons_self _ _

/-- Settles O50: the step is answered, it keeps the invariants as every step does, and what is still to come was to come before. -/
theorem safeStatesNeverStop : Obligations.SafeStatesNeverStop := by
  intro s hs
  obtain ⟨t, ht, hres, hin⟩ := hs.step_answered
  exact ⟨t, ht, stepKeepsInvariants s t hs.inv ht, hres, fun i hi => hs.inputs_admissible i (hin hi)⟩

/-! ## The rejections (R282 to R287) -/

/-- Settles O7: the busy check is the first of `exec` and of a write to CMD. -/
theorem busyRejectsCommands : Obligations.BusyRejectsCommands := fun _ hb =>
  ⟨fun _ hi => exec_of_busy hi hb, fun v hop => issueCommand_of_busy hb fun h => hop ((opField_eq_iff v _).1 h)⟩

/-- Settles O8: such a word decodes to no command, by its OP. -/
theorem undefinedOpcodeRejected : Obligations.UndefinedOpcodeRejected := by
  intro s v hb hop
  obtain ⟨hundef, -⟩ := decodeFollowsTheDecodeRule v
  exact issueCommand_of_decode_error (.inl hb) (hundef hop)

/-- Settles O9: such a word decodes to no command, by its bits above OP; the words with LEN = 0 are evaluated. -/
theorem badArgumentRejected : Obligations.BadArgumentRejected := by
  refine ⟨?_, by decide, by decide⟩
  intro s v op hb hbad
  obtain ⟨-, hargument, -⟩ := decodeFollowsTheDecodeRule v
  simp only [List.mem_cons, List.not_mem_nil, or_false] at hbad hargument
  have hd : decode v = .error .argument := by
    rcases hbad with ⟨hop, hbits⟩ | ⟨hop, hbits⟩
    · exact hargument (by omega) (.inl ⟨hop, hbits⟩)
    · exact hargument (by omega) (.inr ⟨by omega, hbits⟩)
  exact issueCommand_of_decode_error (hb.imp_right (opField_eq_iff v _).2) hd

/-- An idle block rejects a well-formed command whose sequence condition does not hold (R283, R287). -/
theorem exec_of_not_seqOK {i : Instr} {s : State} (hb : s.busy = false) (hw : i.wellFormed = true)
    (hq : ¬ s.seqOK i = true) : exec i s = .next (s.reject .sequence) := by
  have hi : i ≠ .clrErr := fun h => hq (h ▸ rfl)
  rw [exec_eq_issue i s hi, State.issue, if_neg (by simp [hb]), if_pos hw, if_neg hq]

/-- An idle block accepts a well-formed command whose sequence condition holds (R283, R287). -/
theorem exec_of_seqOK {i : Instr} {s : State} (hi : i ≠ .clrErr) (hb : s.busy = false) (hw : i.wellFormed = true)
    (hq : s.seqOK i = true) : exec i s = .next (s.accept i (perform i)) := by
  rw [exec_eq_issue i s hi, State.issue, if_neg (by simp [hb]), if_pos hw, if_pos hq]

/-- Settles O10: the rows of R287 are the cases of the sequence condition, and neither CLR_ERR nor an acceptance fails. -/
theorem sequenceConditionDecides : Obligations.SequenceConditionDecides := by
  intro s i hb hw admitted
  have hrow : admitted ↔ s.seqOK i = true := by
    cases i with
    | shaUpdate len | hmacKeyDigest => exact decide_eq_true_iff.symm
    | shaFinal | hmacKey len => simp [admitted, State.seqOK]
    | hmacFinish => exact Iff.rfl
    | _ => exact iff_of_true trivial rfl
  rw [hrow]
  refine ⟨exec_of_not_seqOK hb hw, fun hq => ?_⟩
  by_cases hi : i = .clrErr
  · subst hi
    exact ⟨_, rfl, rfl⟩
  · exact ⟨_, exec_of_seqOK hi hb hw hq, by rw [if_neg hi, State.accept_err]⟩

end Sys2Proof.Machine
end

section
/-! PROOFS, reset and the host idle (43_control.md R262; 70_reset_and_hazards.md R310, R311, R322): the step that only passes, the
run that ends with the completion of the pending command, and what the reset input does. -/

namespace Sys2Proof.Machine

/-! ## The pending command completes (R262, R322) -/

/-- With no input to come and not the engine's turn, only a step passes. -/
theorem step_of_no_input {s : State} (ht : s.engineTurn = false) (hin : s.inputs = []) : step s = .next s.tick := by
  simp [step, transition, ht, hin]

/-- While a command waits and no input comes, each step only counts down to the engine's turn. -/
theorem run_waiting (n : Nat) {s : State} (hin : s.inputs = []) (hn : s.wait = n) :
    core.run n s = .next { s with wait := 0 } := by
  induction n generalizing s with
  | zero =>
    show Host.Outcome.next s = .next { s with wait := 0 }
    rw [← hn]
  | succ n ih =>
    have hstep : step s = .next s.tick := step_of_no_input (by simp [State.engineTurn, hn]) hin
    rw [core_run_succ n hstep, ih (s := s.tick) hin (by rw [State.tick_wait, hn, Nat.add_sub_cancel])]
    rfl

/-- Settles O13: `wait` steps pass, and then it is the engine's turn. -/
theorem pendingCommandCompletes : Obligations.PendingCommandCompletes := by
  intro s i hb hp hres hin
  have hturn : State.engineTurn { s with wait := 0 } = true := (State.engineTurn_iff _).2 ⟨hb, rfl, hres⟩
  calc core.run (s.wait + 1) s
      = core.run 1 { s with wait := 0 } := core_run_add 1 (run_waiting s.wait hin rfl)
    _ = .next (perform i { s with wait := 0 }).clearPending := core_run_succ 0 (step_engine hturn hp)

/-! ## The reset input (R310, R311) -/

/-- While reset is asserted the engine takes no step (R311). -/
theorem State.engineTurn_of_inReset {s : State} (hres : s.inReset = true) : s.engineTurn = false := by
  simp [State.engineTurn, hres]

/-- While reset is asserted the bus answers no access inside the window, of whatever width and alignment (R310). -/
theorem State.refusal_of_inReset {s : State} {off : Nat} (width : Width) (hres : s.inReset = true) (hoff : off < 0x200) :
    s.refusal off width = some (.fault .accessDuringReset) := by
  rw [State.refusal, if_neg (by omega), if_pos hres]

/-- Asserting reset, when it is not the engine's turn, puts every element at its reset value at once (R311; log 6). -/
theorem step_assertReset {s : State} {rest : List HostInput} (ht : s.engineTurn = false) (hin : s.inputs = .assertReset :: rest) :
    step s = .next { s.resetBlock with inReset := true, inputs := rest } :=
  step_takeInput ht hin

/-- Releasing an asserted reset leaves every element at its reset value (R310; log 6). -/
theorem step_releaseReset {s : State} {rest : List HostInput} (hres : s.inReset = true) (hin : s.inputs = .releaseReset :: rest) :
    step s = .next { s.resetBlock with inReset := false, inputs := rest } := by
  rw [step_takeInput (State.engineTurn_of_inReset hres) hin]
  exact if_pos hres

/-- Settles O60: assertion and release both put every element at its reset value, and in between neither engine nor bus acts. -/
theorem resetAbandonsAndRestores : Obligations.ResetAbandonsAndRestores := by
  intro s rest
  refine ⟨fun hturn hin => ?asserted, fun hres hin => step_releaseReset hres hin,
    fun hres hin => step_of_no_input (State.engineTurn_of_inReset hres) hin, fun off width v hres hoff => ?inReset⟩
  case asserted =>
    have ht : s.engineTurn = false := by
      rw [← Bool.not_eq_true, s.engineTurn_iff]
      exact fun ⟨hb, hw, _⟩ => hturn ⟨hb, hw⟩
    exact ⟨_, step_assertReset ht hin, rfl, rfl, rfl⟩
  case inReset =>
    have hstop := s.refusal_of_inReset width hres hoff
    exact ⟨hostRead_of_refusal hstop, hostWrite_of_refusal v hstop⟩

end Sys2Proof.Machine
end
